-- ==== Sys2Proof/Word.lean ====
section
/-! DEFINITION. The word types of emu6502 CORE: its three widths (spec rule R4). -/

namespace Sys2Proof

/-- `XLEN` = 8: a register, a memory cell, an opcode, an operand byte (R4). -/
abbrev Byte := BitVec 8

/-- `ALEN` = `PCLEN` = `SPLEN` = 16: an address, the program counter, the stack pointer (R4). -/
abbrev Word := BitVec 16

/-- `CYCLEN` = 32: the cycle budget and the remaining-cycle counter (R4, R21). -/
abbrev Cycles := BitVec 32

end Sys2Proof
end

