-- ==== Sys2Proof/Syntax.lean ====
section
/-! DEFINITION. The instructions, one constructor per row of spec/opcode_table.json. -/

namespace Sys2Proof

/-- A decoded instruction with its operand (R50, R51, R52). The names follow the table's mnemonics. -/
inductive Instr where
  /-- `JSR abs`, row JSR_abs: `20 ll hh`, `target = ll | (hh << 8)` (R80). -/
  | jsrAbs (target : Word)
  /-- `LDA zp`, row LDA_zp: `A5 dd` (R72). -/
  | ldaZp (d8 : Byte)
  /-- `LDA #imm`, row LDA__imm: `A9 ii` (R71). -/
  | ldaImm (imm8 : Byte)
  /-- `LDA zp,X`, row LDA_zp_X: `B5 dd` (R73). -/
  | ldaZpX (d8 : Byte)
  /-- An unsupported opcode byte, row UNSUPPORTED: the byte itself (R53, R90). -/
  | unsupported (b : Byte)
deriving DecidableEq, Repr

end Sys2Proof
end

