-- ==== Sys2Proof/WellFormed.lean ====
section
/-! DEFINITION. Which terms of `Instr` are instructions of the hardware. -/

namespace Sys2Proof

/-- The closed set of supported opcode bytes (R52, R53). -/
def supportedOpcodes : List Byte := [0x20#8, 0xA5#8, 0xA9#8, 0xB5#8]

/-- An instruction is well formed when an encoding stands for it. Every operand value is legal for every supported
opcode; the byte of an unsupported one is none of the four supported (R53). DESIGN CHOICE, log entry 12. -/
def Instr.wf : Instr → Bool
  | .jsrAbs _ => true
  | .ldaZp _ => true
  | .ldaImm _ => true
  | .ldaZpX _ => true
  | .unsupported b => !supportedOpcodes.contains b

end Sys2Proof
end

