-- ==== Sys2Proof/Decode.lean ====
section
/-! DEFINITION. The decoder (spec rules R50 to R57), total on any bytes and rejecting by name, the encoder, and the
byte-order helpers both use. -/

namespace Sys2Proof

/-! ## Bytes of a 16-bit value (R5, R32) -/

/-- `v[7:0]`. -/
def lo8 (v : Word) : Byte := v.extractLsb' 0 8

/-- `v[15:8]`. -/
def hi8 (v : Word) : Byte := v.extractLsb' 8 8

/-- `zext_16(v)` (R5). -/
def zext16 (v : Byte) : Word := v.setWidth 16

/-- `lo | (hi << 8)`: composed arithmetically, never by a host's own layout (R32, R63). -/
def join16 (lo hi : Byte) : Word := zext16 lo ||| (zext16 hi <<< 8)

/-! ## The opcode map -/

/-- What an opcode byte selects: the addressing mode is part of the opcode value (R50). -/
inductive Opcode where
  | jsrAbs
  | ldaZp
  | ldaImm
  | ldaZpX
  | unsupported
deriving DecidableEq, Repr

/-- The decoder of an opcode byte, in the order of R57: an exact match of the whole byte, total on all 256 values. -/
def opcodeOf (b : Byte) : Opcode :=
  if b = 0xA9#8 then .ldaImm
  else if b = 0xA5#8 then .ldaZp
  else if b = 0xB5#8 then .ldaZpX
  else if b = 0x20#8 then .jsrAbs
  else .unsupported

/-- The length of an instruction in bytes, a function of what its opcode byte selects (R54). -/
def Opcode.length : Opcode → Nat
  | .jsrAbs => 3
  | .ldaZp => 2
  | .ldaImm => 2
  | .ldaZpX => 2
  | .unsupported => 1

/-- Which opcode an instruction has. -/
def Instr.opcode : Instr → Opcode
  | .jsrAbs _ => .jsrAbs
  | .ldaZp _ => .ldaZp
  | .ldaImm _ => .ldaImm
  | .ldaZpX _ => .ldaZpX
  | .unsupported _ => .unsupported

/-- The length of an instruction in bytes (R52, R54). -/
def Instr.length (i : Instr) : Nat := i.opcode.length

/-- The total of an instruction's debits, opcode fetch included (R52, R66). The operations make these debits one by
one; this table is what statements compare them with. -/
def Instr.cycles : Instr → Nat
  | .jsrAbs _ => 5
  | .ldaZp _ => 3
  | .ldaImm _ => 2
  | .ldaZpX _ => 4
  | .unsupported _ => 1

/-! ## Decoding a list of bytes -/

/-- Why a list of bytes is no instruction. The machine never meets one: from memory there is always a next byte
(R57: the decoder "never refuses"). Safe. -/
inductive DecodeError where
  /-- There is no opcode byte. -/
  | noBytes
  /-- The list ends inside the operand of this opcode byte. -/
  | operandMissing (opcode : Byte)
deriving DecidableEq, Repr

/-- The first instruction of a list of bytes in address order, and the bytes after it (R50, R51, R57). -/
def decode : List Byte → Except DecodeError (Instr × List Byte)
  | [] => .error .noBytes
  | b :: operand =>
    match opcodeOf b, operand with
    | .jsrAbs, ll :: hh :: rest => .ok (.jsrAbs (join16 ll hh), rest)
    | .ldaZp, d :: rest => .ok (.ldaZp d, rest)
    | .ldaImm, d :: rest => .ok (.ldaImm d, rest)
    | .ldaZpX, d :: rest => .ok (.ldaZpX d, rest)
    | .unsupported, rest => .ok (.unsupported b, rest)
    | .jsrAbs, [] => .error (.operandMissing b)
    | .jsrAbs, [_] => .error (.operandMissing b)
    | .ldaZp, [] => .error (.operandMissing b)
    | .ldaImm, [] => .error (.operandMissing b)
    | .ldaZpX, [] => .error (.operandMissing b)

/-! ## Encoding -/

/-- The bytes of an instruction in address order, from the formats of R50 and the opcode map of R52. -/
def encode : Instr → List Byte
  | .jsrAbs target => [0x20#8, lo8 target, hi8 target]
  | .ldaZp d => [0xA5#8, d]
  | .ldaImm d => [0xA9#8, d]
  | .ldaZpX d => [0xB5#8, d]
  | .unsupported b => [b]

/-! ## The opcode table's numbering of an instruction's bits -/

/-- The three bytes (the longest instruction) of an instruction whose bits are `w`: byte `k` is bits `8k+7` to `8k`,
and every bit from `nbits` up is 0. -/
def tableBytes (nbits w : Nat) : List Byte :=
  let bits := w % 2 ^ nbits
  [BitVec.ofNat 8 bits, BitVec.ofNat 8 (bits / 2 ^ 8), BitVec.ofNat 8 (bits / 2 ^ 16)]

/-- The instruction the decoder reads from those bytes. -/
def decodeTableWord (nbits w : Nat) : Option Instr :=
  match decode (tableBytes nbits w) with
  | .ok (i, _) => some i
  | .error _ => none

end Sys2Proof
end

