-- ==== Sys2Proof/Config.lean ====
section
/-! DEFINITION. What is fixed for a machine and does not change as it runs: the parameters of spec rule R4
that are not widths. -/

namespace Sys2Proof

/-- The two admitted values of `JSR_SP_ADVANCE` (R4, decision D2): the parameter has no other. -/
inductive SpAdvance where
  /-- The reference behaviour and the default. -/
  | one
  /-- The "corrected" machine. -/
  | two
deriving DecidableEq, Repr

/-- The parameters a model of the hardware may take (R4): there is one. Which value `step` uses is
`Machine.machineConfig`. -/
structure Config where
  /-- How far JSR advances the stack pointer after its two-byte store. -/
  jsrSpAdvance : SpAdvance
deriving DecidableEq, Repr

/-- `RESET_PC` (R4): the program counter after `Reset`. -/
def Config.resetPc : Word := 0xFFFC#16

/-- `RESET_SP` (R4): the stack pointer after `Reset`. -/
def Config.resetSp : Word := 0x0100#16

/-- `NAMED_MASK` (R4, R18): its 1 bits are the six named flag positions, its 0 bits (4 and 5) the reserved ones. -/
def Config.namedMask : Byte := 0xCF#8

end Sys2Proof
end

