-- ==== Sys2Proof/Machine/State.lean ====
section
/-! DEFINITION. The complete state of the hardware (spec rule R10), as plain data, and the state after construction. -/

namespace Sys2Proof.Machine

/-- The closed tag set of the register file (R11). -/
inductive RegTag where
  | accumulator
  | indexX
  | indexY
deriving DecidableEq, Repr

/-- The register file: exactly three distinct 8-bit slots (R11). -/
structure Regs where
  /-- `x[A]`. -/
  a : Byte
  /-- `x[X]`. -/
  x : Byte
  /-- `x[Y]`. -/
  y : Byte
deriving DecidableEq, Repr

/-- The processor status: six named flags (R17). Bits 4 and 5 of the raw view always read 0 and have no storage
(R18, conflict C9). DEDUCED, log entry 5. -/
structure Status where
  /-- Carry, bit 0. -/
  c : Bool
  /-- Zero, bit 1. -/
  z : Bool
  /-- InterruptDisable, bit 2. -/
  i : Bool
  /-- Decimal, bit 3. -/
  d : Bool
  /-- Overflow, bit 6. -/
  v : Bool
  /-- Negative, bit 7. -/
  n : Bool
deriving DecidableEq, Repr

/-- Memory: the cells that do not hold 0x00, by rising address (R30). The form is `Memory.wf`; an unlisted address
reads 0x00, the value construction gives every cell. Log entry 7. -/
abbrev Memory := List Host.Cell

/-- The tuple of R10. -/
structure State where
  /-- `x[A]`, `x[X]`, `x[Y]` (R11). -/
  regs : Regs
  /-- The program counter (R13). -/
  pc : Word
  /-- The stack pointer, an absolute address (R15). -/
  sp : Word
  /-- The processor status `P` (R17). -/
  p : Status
  /-- The remaining-cycle counter (R21); 0 while no `Execute` is in progress. DESIGN CHOICE, log entry 1. -/
  cyc : Cycles
  /-- The diagnostic events, oldest first (R22). -/
  diag : List Byte
  /-- The 65 536 cells (R30). -/
  mem : Memory
deriving DecidableEq, Repr

/-- No instruction, operand, address or state stops the machine (R100), so there is no reason to stop: this type has
no constructor and no step answers a fault. DEDUCED, log entry 11. -/
inductive Fault where
deriving DecidableEq, Repr

/-- Why the model gives an instruction no meaning. -/
inductive Refusal where
  /-- Raised by an arm of `exec` whose instruction has no meaning yet; no arm raises it. Safe. -/
  | notModelled (mnemonic : String)
deriving DecidableEq, Repr

/-- The state after construction of the CPU and the memory, which is the state after `Reset` with `diag` empty and
every cell 0x00 (R25, R120, R121): log entry 14. `cyc` does not exist here and is held at 0: DESIGN CHOICE, log entry
1. -/
def State.reset : State where
  regs := ⟨0x00#8, 0x00#8, 0x00#8⟩
  pc := Config.resetPc
  sp := Config.resetSp
  p := ⟨false, false, false, false, false, false⟩
  cyc := 0#32
  diag := []
  mem := []

/-! ## The access trace (R46), which is no part of a state -/

/-- One memory access of the CPU, with its address and datum (R46). -/
inductive Access where
  /-- A `MemRead`. -/
  | read (addr : Word) (v : Byte)
  /-- A `MemWrite`. -/
  | write (addr : Word) (v : Byte)
deriving DecidableEq, Repr

/-- A state and the accesses made on the way to it, oldest first (R46). The operations act on this pair, so that the
trace is that of the meanings themselves. No operation reads the trace. Log entry 8. -/
structure Traced where
  st : State
  trace : List Access
deriving DecidableEq, Repr

end Sys2Proof.Machine
end

