-- ==== Sys2Proof/Machine/Memory.lean ====
section
/-! DEFINITION. Reading and writing one cell of memory (spec rules R30, R31), and the canonical form. -/

namespace Sys2Proof.Machine

/-- What an unlisted address reads as: memory is "zero-initialized at construction" (R30). -/
def unlistedByte : Byte := 0x00#8

/-- The content of the cell at `a`. -/
def Memory.read : Memory → Word → Byte
  | [], _ => unlistedByte
  | (b, v) :: m, a => if b = a.toNat then v else Memory.read m a

/-- Drop what is listed at `a`. -/
def Memory.erase (m : Memory) (a : Nat) : Memory := m.filter fun cell => cell.1 != a

/-- List a cell at its place by address. -/
def Memory.insert : Memory → Nat → Byte → Memory
  | [], a, v => [(a, v)]
  | cell :: m, a, v => if a < cell.1 then (a, v) :: cell :: m else cell :: Memory.insert m a v

/-- Set the cell at `a` to `v`; a cell that holds what an unlisted address reads as is not listed. -/
def Memory.write (m : Memory) (a : Word) (v : Byte) : Memory :=
  if v = unlistedByte then Memory.erase m a.toNat else Memory.insert (Memory.erase m a.toNat) a.toNat v

/-- The listed addresses are at least `lo`, strictly rising and inside the address space, and no listed cell holds
what an unlisted address reads as. -/
def Memory.wfFrom : Nat → Memory → Bool
  | _, [] => true
  | lo, (a, v) :: m => decide (lo ≤ a) && decide (a < 65536) && v != unlistedByte && Memory.wfFrom (a + 1) m

/-- The canonical form, in which equal memories are equal data. -/
def Memory.wf (m : Memory) : Bool := Memory.wfFrom 0 m

end Sys2Proof.Machine
end

