-- ==== Sys2Proof/Machine/Ops.lean ====
section
/-! DEFINITION. The shared operations of the meanings: register and field updates, the cycle debit, the two memory
primitives, instruction fetch, the 16-bit store (spec rules R11, R31, R33, R62, R63, R64, R82, R91). The hardware has
no exception, so there is no operation that takes one (R100, R104). -/

namespace Sys2Proof.Machine

/-! ## Fields of a state -/

/-- `x[t]` (R11). -/
def State.getReg (s : State) (t : RegTag) : Byte :=
  match t with
  | .accumulator => s.regs.a
  | .indexX => s.regs.x
  | .indexY => s.regs.y

/-- `x[t] <- v` (R11): one slot, and no flag. -/
def State.setReg (t : RegTag) (v : Byte) (s : State) : State :=
  match t with
  | .accumulator => { s with regs := { s.regs with a := v } }
  | .indexX => { s with regs := { s.regs with x := v } }
  | .indexY => { s with regs := { s.regs with y := v } }

/-- `pc <- target` (R13). -/
def State.setPc (target : Word) (s : State) : State := { s with pc := target }

/-- `sp <- v` (R15). -/
def State.setSp (v : Word) (s : State) : State := { s with sp := v }

/-- Replace the six flags. -/
def State.setStatus (p : Status) (s : State) : State := { s with p := p }

/-- Replace the remaining-cycle counter. -/
def State.setCyc (c : Cycles) (s : State) : State := { s with cyc := c }

/-- Replace the memory. -/
def State.setMem (m : Memory) (s : State) : State := { s with mem := m }

/-- `emit Unsupported(b)`: append the byte value and nothing else (R91). -/
def State.emitUnsupported (b : Byte) (s : State) : State := { s with diag := s.diag ++ [b] }

/-! ## Cycle accounting -/

/-- `Debit(k)` on the counter: subtraction that saturates at zero and never wraps (R64). -/
def debited (k cyc : Cycles) : Cycles := if k ≤ cyc then cyc - k else 0#32

/-- `Debit(k)` (R64). -/
def State.debit (k : Cycles) (s : State) : State := s.setCyc (debited k s.cyc)

/-! ## A state with its trace -/

/-- Begin a trace at a state. -/
def Traced.start (s : State) : Traced := ⟨s, []⟩

/-- A change of the state that accesses no memory. -/
def Traced.on (t : Traced) (f : State → State) : Traced := { t with st := f t.st }

/-! ## Memory -/

/-- `MemRead(addr, 1)`: the content of the cell; nothing changes (R31). -/
def memRead (a : Word) (t : Traced) : Byte × Traced :=
  (t.st.mem.read a, { t with trace := t.trace ++ [.read a (t.st.mem.read a)] })

/-- `MemWrite(addr, 1, v)`: the cell and nothing else (R31). -/
def memWrite (a : Word) (v : Byte) (t : Traced) : Traced :=
  ⟨t.st.setMem (t.st.mem.write a v), t.trace ++ [.write a v]⟩

/-- `Write16(v, addr)`: low byte first, the high byte's address modulo 65 536, one cycle for both (R33). -/
def write16 (v a : Word) (t : Traced) : Traced :=
  (memWrite (a + 1#16) (hi8 v) (memWrite a (lo8 v) t)).on (State.debit 1#32)

/-! ## Fetch -/

/-- `Fetch8()`: read the byte at `pc`, advance `pc` modulo 65 536, debit one cycle, in that order (R62). -/
def fetch8 (t : Traced) : Byte × Traced :=
  let r := memRead t.st.pc t
  (r.1, r.2.on fun s => (s.setPc (s.pc + 1#16)).debit 1#32)

/-- `Fetch16()`: two fetches, the low byte first (R63). -/
def fetch16 (t : Traced) : Word × Traced :=
  let lo := fetch8 t
  let hi := fetch8 lo.2
  (join16 lo.1 hi.1, hi.2)

/-! ## The stack -/

/-- The parameter of this machine: the default, the reference's behaviour (R4, D2). DESIGN CHOICE, log entry 4. -/
def machineConfig : Config := ⟨.one⟩

/-- `JSR_SP_ADVANCE` as a number. -/
def SpAdvance.toWord : SpAdvance → Word
  | .one => 1#16
  | .two => 2#16

/-- Store a return address at the stack pointer and advance it, modulo 65 536 (R16, R82). -/
def pushReturn (c : Config) (ret : Word) (t : Traced) : Traced :=
  (write16 ret t.st.sp t).on fun s => s.setSp (s.sp + SpAdvance.toWord c.jsrSpAdvance)

end Sys2Proof.Machine
end

