-- ==== Sys2Proof/Machine/Flags.lean ====
section
/-! DEFINITION. The status: its raw-bits view (spec rules R17, R18) and the one flag computation of the hardware
(R70). -/

namespace Sys2Proof.Machine

/-- A flag at its position in the raw view. -/
def flagAt (b : Bool) (position : Nat) : Byte := (BitVec.ofBool b).setWidth 8 <<< position

/-- `P.raw`: the six flags at bits 0, 1, 2, 3, 6, 7; bits 4 and 5 are 0 (R17, R18). -/
def Status.raw (p : Status) : Byte :=
  flagAt p.c 0 ||| flagAt p.z 1 ||| flagAt p.i 2 ||| flagAt p.d 3 ||| flagAt p.v 6 ||| flagAt p.n 7

/-- The flags after `SetZN(v)`: Zero and Negative are assigned, the others kept (R70). -/
def Status.withZN (v : Byte) (p : Status) : Status := { p with z := v == 0x00#8, n := v.getLsbD 7 }

/-- `SetZN(v)` (R70). -/
def State.setZN (v : Byte) (s : State) : State := s.setStatus (s.p.withZN v)

/-- The end of every load: the accumulator is written, then `SetZN` runs on the value written (R70, R71). -/
def State.loadAccumulator (v : Byte) (s : State) : State := (s.setReg .accumulator v).setZN v

end Sys2Proof.Machine
end

