-- ==== Sys2Proof/Machine/Operands.lean ====
section
/-! DEFINITION. The addressing-mode resolver (spec rules R74 to R76): the effective addresses, and the data reads that
use them. Immediate operands and jump targets need no address: the operand is the value (R51). -/

namespace Sys2Proof.Machine

/-- The zero-page effective address: the operand byte (R74). -/
def eaZp (d8 : Byte) : Word := zext16 d8

/-- The zero-page-indexed-by-X effective address: an 8-bit sum, its carry discarded (R75). -/
def eaZpX (d8 x : Byte) : Word := zext16 (d8 + x)

/-- A data read: one access and then one cycle (R72, D16). -/
def readData (a : Word) (t : Traced) : Byte × Traced :=
  let r := memRead a t
  (r.1, r.2.on (State.debit 1#32))

/-- The datum of `LDA zp` (R72). -/
def readZp (d8 : Byte) (t : Traced) : Byte × Traced := readData (eaZp d8) t

/-- The datum of `LDA zp,X`: a cycle without an access for the index computation, then the data read (R73, D15). -/
def readZpX (d8 : Byte) (t : Traced) : Byte × Traced :=
  readData (eaZpX d8 (t.st.getReg .indexX)) (t.on (State.debit 1#32))

end Sys2Proof.Machine
end

