-- ==== Sys2Proof/Machine/Load.lean ====
section
/-! DEFINITION. The three load-accumulator instructions (spec rules R71 to R73), from the point where the instruction's
bytes have been fetched. `exec…` is the meaning; the operation beside it also gives the accesses it makes. -/

namespace Sys2Proof.Machine

/-- `LDA #imm` after its operand fetch (R71). -/
def ldaImm (imm8 : Byte) (t : Traced) : Traced := t.on (State.loadAccumulator imm8)

/-- `LDA zp` after its operand fetch (R72). -/
def ldaZp (d8 : Byte) (t : Traced) : Traced :=
  let r := readZp d8 t
  r.2.on (State.loadAccumulator r.1)

/-- `LDA zp,X` after its operand fetch (R73). -/
def ldaZpX (d8 : Byte) (t : Traced) : Traced :=
  let r := readZpX d8 t
  r.2.on (State.loadAccumulator r.1)

/-- The meaning of `LDA #imm` (R71). -/
def execLdaImm (imm8 : Byte) (s : State) : Host.Outcome State Fault Refusal :=
  .next (ldaImm imm8 (.start s)).st

/-- The meaning of `LDA zp` (R72). -/
def execLdaZp (d8 : Byte) (s : State) : Host.Outcome State Fault Refusal :=
  .next (ldaZp d8 (.start s)).st

/-- The meaning of `LDA zp,X` (R73). -/
def execLdaZpX (d8 : Byte) (s : State) : Host.Outcome State Fault Refusal :=
  .next (ldaZpX d8 (.start s)).st

end Sys2Proof.Machine
end

