-- ==== Sys2Proof/Machine/Subroutine.lean ====
section
/-! DEFINITION. The subroutine call (spec rules R80 to R82), from the point where the instruction's bytes have been
fetched. Nothing in the hardware returns from it (R83). -/

namespace Sys2Proof.Machine

/-- The value JSR stores: the address after the operand, minus one, modulo 65 536 (R81). -/
def returnAddress (pcAfterOperand : Word) : Word := pcAfterOperand - 1#16

/-- `JSR abs` after its operand fetch, for either value of `JSR_SP_ADVANCE` (R80). -/
def jsrAbs (c : Config) (target : Word) (t : Traced) : Traced :=
  (pushReturn c (returnAddress t.st.pc) t).on fun s => (s.setPc target).debit 1#32

/-- The meaning of `JSR abs` (R80), with this machine's stack-pointer advance. -/
def execJsrAbs (target : Word) (s : State) : Host.Outcome State Fault Refusal :=
  .next (jsrAbs machineConfig target (.start s)).st

end Sys2Proof.Machine
end

