-- ==== Sys2Proof/Machine/Unsupported.lean ====
section
/-! DEFINITION. The unsupported opcode bytes (spec rules R90 to R92). -/

namespace Sys2Proof.Machine

/-- `Unsupported(b)` after the byte's fetch: one diagnostic event and nothing else (R90). -/
def unsupported (b : Byte) (t : Traced) : Traced := t.on (State.emitUnsupported b)

/-- The meaning of an unsupported byte (R90): no trap, no halt, and the byte stays consumed. -/
def execUnsupported (b : Byte) (s : State) : Host.Outcome State Fault Refusal :=
  .next (unsupported b (.start s)).st

end Sys2Proof.Machine
end

