-- ==== Sys2Proof/Machine/Dispatch.lean ====
section
/-! DEFINITION. The dispatch on a fetched instruction (spec rule R60): one arm per constructor, one meaning each. -/

namespace Sys2Proof.Machine

def exec (i : Instr) (s : State) : Host.Outcome State Fault Refusal :=
  match i with
  | .jsrAbs target => Sys2Proof.Machine.execJsrAbs target s
  | .ldaZp d8 => Sys2Proof.Machine.execLdaZp d8 s
  | .ldaImm imm8 => Sys2Proof.Machine.execLdaImm imm8 s
  | .ldaZpX d8 => Sys2Proof.Machine.execLdaZpX d8 s
  | .unsupported b => Sys2Proof.Machine.execUnsupported b s

end Sys2Proof.Machine
end

