-- ==== Sys2Proof/Machine/Loop.lean ====
section
/-! DEFINITION. The fetch-decode-execute loop (spec rules R60 to R68): the fetch of one instruction, the body of the
loop, the boundary check, and the run of a whole `Execute` with its accesses and costs. -/

namespace Sys2Proof.Machine

/-- Fetch the opcode byte and then the operand bytes its opcode calls for, each by one `Fetch8` (R51, R60). The
handlers of the spec begin with these operand fetches. DEDUCED, log entry 6. -/
def fetchInstr (t : Traced) : Instr × Traced :=
  let b := fetch8 t
  match opcodeOf b.1 with
  | .ldaImm => let d := fetch8 b.2; (.ldaImm d.1, d.2)
  | .ldaZp => let d := fetch8 b.2; (.ldaZp d.1, d.2)
  | .ldaZpX => let d := fetch8 b.2; (.ldaZpX d.1, d.2)
  | .jsrAbs => let a := fetch16 b.2; (.jsrAbs a.1, a.2)
  | .unsupported => (.unsupported b.1, b.2)

/-- What `exec` does, with the accesses it makes, for either value of the parameter. -/
def perform (c : Config) (i : Instr) (t : Traced) : Traced :=
  match i with
  | .jsrAbs target => jsrAbs c target t
  | .ldaZp d8 => ldaZp d8 t
  | .ldaImm imm8 => ldaImm imm8 t
  | .ldaZpX d8 => ldaZpX d8 t
  | .unsupported b => unsupported b t

/-- The body of the loop, `Step` of R65: one instruction or unsupported byte, whole, whatever `cyc` is. -/
def bodyWith (c : Config) (t : Traced) : Traced :=
  perform c (fetchInstr t).1 (fetchInstr t).2

/-- The check at an instruction boundary: with no cycle left the run is over (R61). -/
def State.idle (s : State) : Bool := s.cyc == 0#32

/-- One move of the machine from an instruction boundary: with a cycle left, fetch one instruction and run it; with
none left no `Execute` is in progress and the machine keeps all its state (R61, R112). DESIGN CHOICE, log entry 2. -/
def boundaryStep (s : State) : Host.Outcome State Fault Refusal :=
  if s.idle then .next s
  else exec (fetchInstr (.start s)).1 (fetchInstr (.start s)).2.st

/-! ## A whole `Execute` -/

/-- The loop of R60 from a boundary, at most `fuel` times. -/
def loopWith (c : Config) : Nat → Traced → Traced
  | 0, t => t
  | fuel + 1, t => if t.st.idle then t else loopWith c fuel (bodyWith c t)

/-- `Execute(budget)` with its access trace, for either value of the parameter (R46, R60). Every pass debits at least
one cycle, so `budget` passes are enough (R67). -/
def executeWith (c : Config) (budget : Cycles) (s : State) : Traced :=
  loopWith c budget.toNat (.start (s.setCyc budget))

/-- `Execute(budget)` of this machine: it returns no value, only the state (R60). -/
def execute (budget : Cycles) (s : State) : State := (executeWith machineConfig budget s).st

/-- The instructions the loop runs from a boundary, in order, at most `fuel` of them. -/
def loopInstrs (c : Config) : Nat → Traced → List Instr
  | 0, _ => []
  | fuel + 1, t => if t.st.idle then [] else (fetchInstr t).1 :: loopInstrs c fuel (bodyWith c t)

/-- The steps `s1 .. sk` of an `Execute(budget)` (R67). -/
def executedInstrs (c : Config) (budget : Cycles) (s : State) : List Instr :=
  loopInstrs c budget.toNat (.start (s.setCyc budget))

/-- The cycles' worth of a list of instructions, `c1 + ... + ck` of R67. -/
def totalCycles (is : List Instr) : Nat := (is.map Instr.cycles).sum

end Sys2Proof.Machine
end

