-- ==== Sys2Proof/Machine/HostOps.lean ====
section
/-! DEFINITION. The host's operations (spec rules R7, R8, R43, R120, R121): what the outside can do to the machine. The
definitions before `HostOp` say what each operation does or reads; `hostCall` is the interface, which says when the host
has the move. -/

namespace Sys2Proof.Machine

/-- `Construct`: a new CPU and a new memory (R7, R121). -/
def construct : State := State.reset

/-- `Reset`: the CPU's registers and flags; `mem` and `diag` are kept, and there is no `cyc` to change (R25, R120). -/
def hostReset (s : State) : State :=
  { s with
    pc := Config.resetPc
    sp := Config.resetSp
    regs := ⟨0x00#8, 0x00#8, 0x00#8⟩
    p := ⟨false, false, false, false, false, false⟩ }

/-- What `HostRead(addr)` reads (R43). -/
def hostRead (a : Word) (s : State) : Byte := s.mem.read a

/-- `HostWrite(addr, v)` (R43): no cycle and no other effect. -/
def hostWrite (a : Word) (v : Byte) (s : State) : State := s.setMem (s.mem.write a v)

/-- The call of `Execute(budget)`: `cyc <- budget` (R60, R68: nothing is carried over). The steps that follow run it. -/
def hostExecute (budget : Cycles) (s : State) : State := s.setCyc budget

/-- What `Observe` shows (R7): every element of CPU state. -/
structure Observation where
  pc : Word
  sp : Word
  a : Byte
  x : Byte
  y : Byte
  /-- The raw-bits view of the status. -/
  raw : Byte
  /-- The diagnostic events, which the host may read as well. -/
  diag : List Byte
deriving DecidableEq, Repr

/-- What `Observe` reads (R7). -/
def observe (s : State) : Observation where
  pc := s.pc
  sp := s.sp
  a := s.getReg .accumulator
  x := s.getReg .indexX
  y := s.getReg .indexY
  raw := s.p.raw
  diag := s.diag

/-- The host's operations, the only ways the host and the hardware interact (R7). -/
inductive HostOp where
  /-- `Construct`: the host goes on with a new CPU and a new memory. -/
  | construct
  /-- `Reset`. -/
  | reset
  /-- `HostRead(addr)`. -/
  | read (addr : Word)
  /-- `HostWrite(addr, v)`. -/
  | write (addr : Word) (v : Byte)
  /-- `Observe`. -/
  | observe
  /-- The call of `Execute(budget)`. -/
  | execute (budget : Cycles)
deriving DecidableEq, Repr

/-- What an operation gives back to the host (R7). -/
inductive HostReply where
  /-- Nothing: `Construct`, `Reset`, `HostWrite`, and `Execute`, which returns no value. -/
  | done
  /-- The byte of a `HostRead`. -/
  | byte (v : Byte)
  /-- The view of an `Observe`. -/
  | view (o : Observation)
deriving DecidableEq, Repr

/-- What an operation changes: the two readings, nothing (R7, R43). -/
def HostOp.effect (op : HostOp) (s : State) : State :=
  match op with
  | .construct => Machine.construct
  | .reset => hostReset s
  | .read _ => s
  | .write a v => hostWrite a v s
  | .observe => s
  | .execute budget => hostExecute budget s

/-- What an operation answers (R7, R43). -/
def HostOp.reply (op : HostOp) (s : State) : HostReply :=
  match op with
  | .construct => .done
  | .reset => .done
  | .read a => .byte (hostRead a s)
  | .write _ _ => .done
  | .observe => .view (Machine.observe s)
  | .execute _ => .done

/-- A host operation, with its reply and the state after it: possible only while no `Execute` is in progress, a reading
of memory or of the CPU no less than a change (R8, D13). Log entry 9. -/
def hostCall (op : HostOp) (s : State) : Option (HostReply × State) :=
  if s.idle then some (op.reply s, op.effect s) else none

/-- The state after a host operation, where one is possible (R8). -/
def hostApply (op : HostOp) (s : State) : Option State := (hostCall op s).map Prod.snd

end Sys2Proof.Machine
end

