-- ==== Sys2Proof/Machine/Step.lean ====
section
/-! DEFINITION. The step of the machine, and an instruction placed where the next step fetches. -/

namespace Sys2Proof.Machine

/-- One step from an instruction boundary (R60, R61, R65); the work is `boundaryStep`'s. -/
def step (s : State) : Host.Outcome State Fault Refusal := boundaryStep s

/-- Store bytes at `a` and the addresses after it, modulo 65 536, as the host does (R43). -/
def State.withBytesAt : State → Word → List Byte → State
  | s, _, [] => s
  | s, a, b :: bs => State.withBytesAt (hostWrite a b s) (a + 1#16) bs

/-- The state with the table's instruction `w` stored at `pc`; where no `Execute` is in progress the call
`Execute(1)` is made as well, which runs exactly one instruction (R68). DESIGN CHOICE, log entry 3. -/
def State.withFetchWord (s : State) (nbits w : Nat) : State :=
  let placed := s.withBytesAt s.pc (tableBytes nbits w)
  if placed.idle then hostExecute 1#32 placed else placed

end Sys2Proof.Machine
end

