-- ==== Sys2Proof/Safety.lean ====
section
/-! DEFINITION. What counts as a safe run, in the terms the statements use: the invariants, the states the interface
can reach, and one move of the whole system. -/

namespace Sys2Proof.Machine

/-- The memory is in canonical form: what makes equal memories equal data. It holds of every state the machine can be
in, and of no hardware fact besides. -/
abbrev State.Inv (s : State) : Prop := s.mem.wf = true

/-- What only the loads and `Reset` allow of a machine that was never started from an arbitrary state: X, Y and the
flags C, I, D, V are 0, and Z and N are not both set (R12, R19, R27 (d)). -/
abbrev State.BootInv (s : State) : Prop :=
  s.regs.x = 0#8 ∧ s.regs.y = 0#8 ∧ s.p.c = false ∧ s.p.i = false ∧ s.p.d = false ∧ s.p.v = false ∧
    (s.p.z && s.p.n) = false

/-- The states reached from construction by the interface operations alone (R7, R8): the host's operations between
two `Execute` calls, and the machine's own steps. -/
inductive Reachable : State → Prop where
  | constructed : Reachable State.reset
  | host {s t : State} (op : HostOp) : Reachable s → hostApply op s = some t → Reachable t
  | stepped {s t : State} : Reachable s → step s = .next t → Reachable t

/-- The bytes at `a` and the addresses after it, modulo 65 536. -/
def State.bytesAt (s : State) : Word → Nat → List Byte
  | _, 0 => []
  | a, n + 1 => s.mem.read a :: State.bytesAt s (a + 1#16) n

end Sys2Proof.Machine
end

