-- ==== Sys2Proof/Certificates/Slice0/Obligations.lean ====
section
/-! DEFINITION. The statements for the provers. `step` and `exec` are of this machine (`JSR_SP_ADVANCE` = 1); a
statement with a `c : Config` is about both admitted values. A byte sum is written as BitVec addition, which is the
modular addition of spec rule R5. -/

open Sys2Proof Sys2Proof.Machine

/-! ## Terms of the statements -/

/-- Bits [7:0] of a 16-bit value. -/
abbrev Sys2Proof.Machine.lowByte (v : Word) : Byte := v.setWidth 8

/-- Bits [15:8] of a 16-bit value. -/
abbrev Sys2Proof.Machine.highByte (v : Word) : Byte := (v >>> 8).setWidth 8

/-- The next step runs one of the three loads: the loop goes on (R60) and a load's opcode stands at `pc` (R71 to R73). -/
def Sys2Proof.Machine.State.RunsLoad (s : State) : Prop :=
  s.cyc ≠ 0#32 ∧ (s.mem.read s.pc = 0xA9#8 ∨ s.mem.read s.pc = 0xA5#8 ∨ s.mem.read s.pc = 0xB5#8)

/-- `JSR_SP_ADVANCE` of a machine (R4). -/
def Sys2Proof.Machine.advanceOf (c : Config) : Word :=
  match c.jsrSpAdvance with
  | .one => 1#16
  | .two => 2#16

/-- The table of R66 for the instruction at `pc`: the total of the debits, and the accesses in order. -/
def Sys2Proof.Machine.costAndAccesses (s : State) : Nat × List Access :=
  let byte := fun a => Access.read a (s.mem.read a)
  let d8 := s.mem.read (s.pc + 1#16)
  match opcodeOf (s.mem.read s.pc) with
  | .ldaImm => (2, [byte s.pc, byte (s.pc + 1#16)])
  | .ldaZp => (3, [byte s.pc, byte (s.pc + 1#16), byte (d8.setWidth 16)])
  | .ldaZpX => (4, [byte s.pc, byte (s.pc + 1#16), byte ((d8 + s.regs.x).setWidth 16)])
  | .jsrAbs =>
    (5, [byte s.pc, byte (s.pc + 1#16), byte (s.pc + 2#16),
      .write s.sp (lowByte (s.pc + 2#16)), .write (s.sp + 1#16) (highByte (s.pc + 2#16))])
  | .unsupported => (1, [byte s.pc])

/-- JSRs one after another, given by the return addresses they store and their targets (R82): before each, `pc` stands
behind the operand. -/
def Sys2Proof.Machine.callAll (c : Config) : List (Word × Word) → State → State
  | [], s => s
  | (ret, target) :: calls, s => callAll c calls (jsrAbs c target (.start (s.setPc (ret + 1#16)))).st

/-! ## Encoding -/

/-- Words written out from the encodings of R50 and R52, and a byte that is no opcode. -/
def Obligations.DecodesWordsWrittenOut : Prop :=
  decode [0x20#8, 0x34#8, 0x12#8, 0x77#8] = .ok (.jsrAbs 0x1234#16, [0x77#8]) ∧
  decode [0xA5#8, 0x10#8] = .ok (.ldaZp 0x10#8, []) ∧
  decode [0xA9#8, 0x84#8] = .ok (.ldaImm 0x84#8, []) ∧
  decode [0xB5#8, 0xF5#8] = .ok (.ldaZpX 0xF5#8, []) ∧
  decode [0xEA#8, 0xA9#8] = .ok (.unsupported 0xEA#8, [0xA9#8]) ∧
  decodeTableWord 24 0x123420 = some (.jsrAbs 0x1234#16) ∧
  decodeTableWord 16 0x84A9 = some (.ldaImm 0x84#8)

/-- Decoding an encoded well-formed instruction gives it back, whatever bytes follow it (R50 to R52). -/
def Obligations.DecodeOfEncodeIsTheInstruction : Prop :=
  ∀ (i : Instr) (rest : List Byte), i.wf = true → decode (encode i ++ rest) = .ok (i, rest)

/-- What the decoder reads is well formed and is encoded by the bytes it read (R50 to R54). -/
def Obligations.EncodeOfDecodeIsTheBytes : Prop :=
  ∀ (bytes rest : List Byte) (i : Instr), decode bytes = .ok (i, rest) →
    i.wf = true ∧ bytes = encode i ++ rest ∧ bytes.length = i.length + rest.length

/-- The decoder of R57: total on all byte values, an exact match of the whole opcode byte. -/
def Obligations.DecoderIsTotalAndExact : Prop :=
  ∀ (b o1 o2 : Byte) (rest : List Byte),
    decode (b :: o1 :: o2 :: rest) = .ok
      (if b = 0xA9#8 then (.ldaImm o1, o2 :: rest)
      else if b = 0xA5#8 then (.ldaZp o1, o2 :: rest)
      else if b = 0xB5#8 then (.ldaZpX o1, o2 :: rest)
      else if b = 0x20#8 then (.jsrAbs (o2 ++ o1), rest)
      else (.unsupported b, o1 :: o2 :: rest))

/-- The 252 unsupported byte values of R53; among them are the break, no-operation and return opcodes of a full
6502-class processor (R92). -/
def Obligations.UnsupportedBytesAreTheListed252 : Prop :=
  (∀ b : Byte, opcodeOf b = .unsupported ↔
    b ≤ 0x1F#8 ∨ (0x21#8 ≤ b ∧ b ≤ 0xA4#8) ∨ (0xA6#8 ≤ b ∧ b ≤ 0xA8#8) ∨ (0xAA#8 ≤ b ∧ b ≤ 0xB4#8) ∨ 0xB6#8 ≤ b) ∧
  ((List.range 256).filter fun n => opcodeOf (BitVec.ofNat 8 n) == .unsupported).length = 252 ∧
  ∀ b ∈ [0x00#8, 0xEA#8, 0x60#8, 0x40#8], opcodeOf b = .unsupported

/-! ## The step -/

/-- With a cycle left, the step runs the instruction that the bytes at `pc` decode to, after moving `pc` past them and
debiting one cycle for each (R51, R60 to R62). -/
def Obligations.StepRunsTheDecodedInstruction : Prop :=
  ∀ (s : State) (i : Instr) (rest : List Byte),
    s.cyc ≠ 0#32 → decode (s.bytesAt s.pc 3) = .ok (i, rest) →
    step s = exec i { s with
      pc := s.pc + BitVec.ofNat 16 i.length
      cyc := debited (BitVec.ofNat 32 i.length) s.cyc }

/-- With no cycle left nothing is fetched and nothing changes (R61, R103 (a), R112). That the model answers this as a
step which keeps the state, and that no `Execute` in progress is `cyc = 0`, is the model's choice: log entries 1, 2. -/
def Obligations.StepWithSpentBudgetKeepsState : Prop :=
  (∀ s : State, s.cyc = 0#32 → step s = .next s) ∧
  ∀ (c : Config) (s : State), executeWith c 0#32 s = ⟨{ s with cyc := 0#32 }, []⟩

/-- No instruction, operand, address or state stops the machine (R100). -/
def Obligations.EveryStepAnswersANextState : Prop :=
  (∀ (i : Instr) (s : State), ∃ t, exec i s = .next t) ∧ (∀ s : State, ∃ t, step s = .next t) ∧ (Fault → False)

/-! ## Primitives -/

/-- `MemRead` returns the cell and changes nothing; `MemWrite` sets the cell and changes no other cell and nothing else
(R31). -/
def Obligations.MemoryPrimitives : Prop :=
  ∀ (a : Word) (v : Byte) (t : Traced),
    memRead a t = (t.st.mem.read a, ⟨t.st, t.trace ++ [.read a (t.st.mem.read a)]⟩) ∧
    memWrite a v t = ⟨{ t.st with mem := (memWrite a v t).st.mem }, t.trace ++ [.write a v]⟩ ∧
    ∀ b, (memWrite a v t).st.mem.read b = if b = a then v else t.st.mem.read b

/-- `Write16` stores the low byte at the address and the high byte at the next one, modulo 65 536, in that order, for one
cycle (R33). -/
def Obligations.Write16StoresLittleEndian : Prop :=
  (∀ (v a : Word) (t : Traced),
    write16 v a t = ⟨{ t.st with mem := (write16 v a t).st.mem, cyc := debited 1#32 t.st.cyc },
      t.trace ++ [.write a (lowByte v), .write (a + 1#16) (highByte v)]⟩ ∧
    ∀ b, (write16 v a t).st.mem.read b =
      if b = a then lowByte v else if b = a + 1#16 then highByte v else t.st.mem.read b) ∧
  ∀ t, (write16 0xFFFE#16 0x0100#16 t).st.mem.read 0x0100#16 = 0xFE#8 ∧ (write16 0xFFFE#16 0x0100#16 t).st.mem.read 0x0101#16 = 0xFF#8

/-- `Fetch8` reads the byte at `pc`, advances `pc` by one modulo 65 536 and debits one cycle (R62). -/
def Obligations.Fetch8ReadsAdvancesDebits : Prop :=
  ∀ t : Traced,
    fetch8 t = (t.st.mem.read t.st.pc,
      ⟨{ t.st with pc := t.st.pc + 1#16, cyc := debited 1#32 t.st.cyc },
        t.trace ++ [.read t.st.pc (t.st.mem.read t.st.pc)]⟩) ∧
    (fetch8 t).2.st.pc.toNat = (t.st.pc.toNat + 1) % 65536

/-- `Fetch16` fetches two bytes, the low one first, and combines them arithmetically (R63). -/
def Obligations.Fetch16CombinesLittleEndian : Prop :=
  ∀ t : Traced,
    (fetch16 t).1.toNat = (t.st.mem.read t.st.pc).toNat + 256 * (t.st.mem.read (t.st.pc + 1#16)).toNat ∧
    (fetch16 t).2 = ⟨{ t.st with pc := t.st.pc + 2#16, cyc := debited 2#32 t.st.cyc },
      t.trace ++ [.read t.st.pc (t.st.mem.read t.st.pc), .read (t.st.pc + 1#16) (t.st.mem.read (t.st.pc + 1#16))]⟩

/-- The debit subtracts, stays at zero, and never wraps (R64). -/
def Obligations.DebitSaturatesAtZero : Prop :=
  ∀ (k : Cycles) (s : State),
    s.debit k = { s with cyc := (s.debit k).cyc } ∧
    (k ≤ s.cyc → (s.debit k).cyc.toNat = s.cyc.toNat - k.toNat) ∧
    (s.cyc < k → (s.debit k).cyc = 0#32) ∧
    (s.debit k).cyc ≤ s.cyc

/-- `SetZN` assigns Zero and Negative from the value and keeps every other flag and field; each load runs it after the
accumulator has been written, on the value written (R70). -/
def Obligations.SetZNAssignsZeroAndNegative : Prop :=
  (∀ (d : Byte) (t : Traced),
    (ldaImm d t).st = (t.st.setReg .accumulator d).setZN d ∧
    (ldaZp d t).st = ((readZp d t).2.st.setReg .accumulator (readZp d t).1).setZN (readZp d t).1 ∧
    (ldaZpX d t).st = ((readZpX d t).2.st.setReg .accumulator (readZpX d t).1).setZN (readZpX d t).1) ∧
  ∀ (v : Byte) (s : State),
    s.setZN v = { s with p := { s.p with z := decide (v = 0#8), n := v.msb } } ∧
    ((s.setZN v).p.z && (s.setZN v).p.n) = false ∧
    (v = 0#8 → (s.setZN v).p.z = true ∧ (s.setZN v).p.n = false) ∧
    (1#8 ≤ v → v ≤ 0x7F#8 → (s.setZN v).p.z = false ∧ (s.setZN v).p.n = false) ∧
    (0x80#8 ≤ v → (s.setZN v).p.z = false ∧ (s.setZN v).p.n = true)

/-- The zero-page address is the operand byte, inside page 0, and costs no cycle and no access of its own: the data read
makes the only one of each (R74). -/
def Obligations.ZeroPageAddressIsTheOperand : Prop :=
  ∀ (d8 : Byte) (t : Traced),
    eaZp d8 = d8.setWidth 16 ∧ (eaZp d8).toNat = d8.toNat ∧ (eaZp d8).toNat ≤ 255 ∧
    readZp d8 t = (t.st.mem.read (eaZp d8),
      ⟨{ t.st with cyc := debited 1#32 t.st.cyc }, t.trace ++ [.read (eaZp d8) (t.st.mem.read (eaZp d8))]⟩)

/-- The zero-page-indexed address is the 8-bit sum of the operand byte and X with the carry discarded, so it stays in
page 0; computing it costs one cycle, without an access, beside the one of the data read, and changes neither X nor a
flag (R75). -/
def Obligations.IndexedAddressWrapsInPageZero : Prop :=
  (∀ (d8 x : Byte), (eaZpX d8 x).toNat = (d8.toNat + x.toNat) % 256 ∧ (eaZpX d8 x).toNat ≤ 255) ∧
  (∀ (d8 : Byte) (t : Traced),
    readZpX d8 t = (t.st.mem.read (eaZpX d8 t.st.regs.x),
      ⟨{ t.st with cyc := debited 2#32 t.st.cyc },
        t.trace ++ [.read (eaZpX d8 t.st.regs.x) (t.st.mem.read (eaZpX d8 t.st.regs.x))]⟩)) ∧
  eaZpX 0xF5#8 0x20#8 = 0x0015#16 ∧ eaZpX 0xFF#8 0x01#8 = 0x0000#16 ∧ eaZpX 0x80#8 0x80#8 = 0x0000#16 ∧ eaZpX 0xFF#8 0xFF#8 = 0x00FE#16 ∧
  ∀ d8 : Byte, eaZpX d8 0x00#8 = d8.setWidth 16

/-- The raw view holds C, Z, I, D, V, N at bits 0, 1, 2, 3, 6, 7 and zeros at 4 and 5 (R17). -/
def Obligations.RawStatusBitPositions : Prop :=
  ∀ p : Status,
    p.raw.getLsbD 0 = p.c ∧ p.raw.getLsbD 1 = p.z ∧ p.raw.getLsbD 2 = p.i ∧ p.raw.getLsbD 3 = p.d ∧
    p.raw.getLsbD 4 = false ∧ p.raw.getLsbD 5 = false ∧ p.raw.getLsbD 6 = p.v ∧ p.raw.getLsbD 7 = p.n

/-- Bits 4 and 5 of the raw view read 0 in every state, whatever the flags (R18). -/
def Obligations.ReservedStatusBitsReadZero : Prop :=
  (∀ s : State, s.p.raw &&& 0x30#8 = 0#8 ∧ s.p.raw &&& Config.namedMask = s.p.raw) ∧
  Config.namedMask = 0b11001111#8 ∧
  Status.raw ⟨true, true, true, true, true, true⟩ = Config.namedMask ∧
  Status.raw ⟨false, false, false, false, false, false⟩ = 0#8

/-- The register file is three distinct slots: a write is read back, changes no other slot and no flag or other field
(R11). -/
def Obligations.RegisterSlotsNeverAlias : Prop :=
  ∀ (t u : RegTag) (v : Byte) (s : State),
    (s.setReg t v).getReg u = (if u = t then v else s.getReg u) ∧
    s.setReg t v = { s with regs := (s.setReg t v).regs }

/-! ## What each meaning does, from the state after its instruction's fetch -/

/-- `LDA #imm`: A and the flags Z and N, nothing else (R70, R71). -/
def Obligations.ExecLdaImmResult : Prop :=
  ∀ (v : Byte) (s : State),
    exec (.ldaImm v) s = .next { s with
      regs := { s.regs with a := v }
      p := { s.p with z := decide (v = 0#8), n := v.msb } }

/-- `LDA zp`: A from the zero page, Z and N, and the cycle of the data read (R70, R72, R74). -/
def Obligations.ExecLdaZpResult : Prop :=
  ∀ (d8 v : Byte) (s : State), s.mem.read (d8.setWidth 16) = v →
    exec (.ldaZp d8) s = .next { s with
      regs := { s.regs with a := v }
      p := { s.p with z := decide (v = 0#8), n := v.msb }
      cyc := debited 1#32 s.cyc }

/-- `LDA zp,X`: A from the zero page at the 8-bit sum, Z and N, and two cycles (R70, R73, R75). -/
def Obligations.ExecLdaZpXResult : Prop :=
  ∀ (d8 v : Byte) (s : State), s.mem.read ((d8 + s.regs.x).setWidth 16) = v →
    exec (.ldaZpX d8) s = .next { s with
      regs := { s.regs with a := v }
      p := { s.p with z := decide (v = 0#8), n := v.msb }
      cyc := debited 2#32 s.cyc }

/-- `JSR abs`, with `pc` standing behind the operand: the two bytes of `pc - 1` at `sp` and `sp + 1`, `sp` one higher,
`pc` at the target, two cycles (R80, R81). The advance is the parameter's default, 1 (R4). -/
def Obligations.ExecJsrAbsResult : Prop :=
  ∀ (target : Word) (s : State), ∃ m : Memory,
    exec (.jsrAbs target) s = .next { s with
      pc := target
      sp := s.sp + 1#16
      cyc := debited 2#32 s.cyc
      mem := m } ∧
    ∀ a, m.read a =
      if a = s.sp then lowByte (s.pc - 1#16) else if a = s.sp + 1#16 then highByte (s.pc - 1#16) else s.mem.read a

/-- An unsupported byte: one diagnostic event, nothing else (R90, R91). -/
def Obligations.ExecUnsupportedResult : Prop :=
  ∀ (b : Byte) (s : State), exec (.unsupported b) s = .next { s with diag := s.diag ++ [b] }

/-! ## What a step does when the instruction stands at `pc` -/

/-- `A9 ii` at `pc` (R71): the next state and the accesses in order, for either parameter and any positive budget. -/
def Obligations.StepLdaImmediate : Prop :=
  ∀ (c : Config) (v : Byte) (s : State),
    s.cyc ≠ 0#32 → s.mem.read s.pc = 0xA9#8 → s.mem.read (s.pc + 1#16) = v →
    let t : State := { s with
      regs := { s.regs with a := v }
      p := { s.p with z := decide (v = 0#8), n := v.msb }
      pc := s.pc + 2#16
      cyc := debited 2#32 s.cyc }
    step s = .next t ∧ bodyWith c (.start s) = ⟨t, [.read s.pc 0xA9#8, .read (s.pc + 1#16) v]⟩

/-- `A5 dd` at `pc` (R72), the data cell anywhere in page 0, the instruction's own bytes included. -/
def Obligations.StepLdaZeroPage : Prop :=
  ∀ (c : Config) (d8 v : Byte) (s : State),
    s.cyc ≠ 0#32 → s.mem.read s.pc = 0xA5#8 → s.mem.read (s.pc + 1#16) = d8 → s.mem.read (d8.setWidth 16) = v →
    let t : State := { s with
      regs := { s.regs with a := v }
      p := { s.p with z := decide (v = 0#8), n := v.msb }
      pc := s.pc + 2#16
      cyc := debited 3#32 s.cyc }
    step s = .next t ∧
    bodyWith c (.start s) = ⟨t, [.read s.pc 0xA5#8, .read (s.pc + 1#16) d8, .read (d8.setWidth 16) v]⟩

/-- `B5 dd` at `pc` (R73): the index wraps in page 0, its cycle makes no access, X is kept. -/
def Obligations.StepLdaZeroPageX : Prop :=
  ∀ (c : Config) (d8 v : Byte) (s : State),
    s.cyc ≠ 0#32 → s.mem.read s.pc = 0xB5#8 → s.mem.read (s.pc + 1#16) = d8 →
    s.mem.read ((d8 + s.regs.x).setWidth 16) = v →
    let t : State := { s with
      regs := { s.regs with a := v }
      p := { s.p with z := decide (v = 0#8), n := v.msb }
      pc := s.pc + 2#16
      cyc := debited 4#32 s.cyc }
    step s = .next t ∧
    bodyWith c (.start s)
      = ⟨t, [.read s.pc 0xB5#8, .read (s.pc + 1#16) d8, .read ((d8 + s.regs.x).setWidth 16) v]⟩

/-- `20 ll hh` at `pc` (R80, R81): the stored value is the address of the JSR's last byte, low byte first, also where
addresses wrap and where the store hits the JSR's own bytes; every other cell is kept. -/
def Obligations.StepJsrAbsolute : Prop :=
  ∀ (c : Config) (ll hh : Byte) (s : State),
    s.cyc ≠ 0#32 → s.mem.read s.pc = 0x20#8 → s.mem.read (s.pc + 1#16) = ll → s.mem.read (s.pc + 2#16) = hh →
    ∃ m : Memory,
      (∀ a, m.read a =
        if a = s.sp then lowByte (s.pc + 2#16) else if a = s.sp + 1#16 then highByte (s.pc + 2#16) else s.mem.read a) ∧
      bodyWith c (.start s) =
        ⟨{ s with pc := hh ++ ll, sp := s.sp + advanceOf c, cyc := debited 5#32 s.cyc, mem := m },
          [.read s.pc 0x20#8, .read (s.pc + 1#16) ll, .read (s.pc + 2#16) hh,
            .write s.sp (lowByte (s.pc + 2#16)), .write (s.sp + 1#16) (highByte (s.pc + 2#16))]⟩ ∧
      step s = .next { s with pc := hh ++ ll, sp := s.sp + 1#16, cyc := debited 5#32 s.cyc, mem := m }

/-- Any of the 252 other bytes at `pc` (R90, R91): skipped for one cycle and recorded. -/
def Obligations.StepUnsupportedByte : Prop :=
  ∀ (c : Config) (b : Byte) (s : State),
    s.cyc ≠ 0#32 → s.mem.read s.pc = b → b ≠ 0x20#8 → b ≠ 0xA5#8 → b ≠ 0xA9#8 → b ≠ 0xB5#8 →
    let t : State := { s with pc := s.pc + 1#16, cyc := debited 1#32 s.cyc, diag := s.diag ++ [b] }
    step s = .next t ∧ bodyWith c (.start s) = ⟨t, [.read s.pc b]⟩

/-- The table of R66: the total of a step's debits and its accesses in order, whatever stands at `pc`. -/
def Obligations.StepCostsAndAccesses : Prop :=
  ∀ (c : Config) (s : State),
    (bodyWith c (.start s)).st.cyc.toNat = s.cyc.toNat - (costAndAccesses s).1 ∧
    (bodyWith c (.start s)).trace = (costAndAccesses s).2 ∧
    (fetchInstr (.start s)).1.cycles = (costAndAccesses s).1

/-! ## Frames -/

/-- A load writes A, Z, N and the counter: every other register, flag and special register, and every byte of memory, is
unchanged (R19, R45, R71 to R73). -/
def Obligations.LoadsChangeOnlyAZNAndCounter : Prop :=
  ∀ (i : Instr) (s t : State),
    (∃ d : Byte, i = .ldaImm d ∨ i = .ldaZp d ∨ i = .ldaZpX d) → exec i s = .next t →
    t.regs.x = s.regs.x ∧ t.regs.y = s.regs.y ∧ t.pc = s.pc ∧ t.sp = s.sp ∧
    t.p.c = s.p.c ∧ t.p.i = s.p.i ∧ t.p.d = s.p.d ∧ t.p.v = s.p.v ∧ t.diag = s.diag ∧
    ∀ a, t.mem.read a = s.mem.read a

/-- JSR keeps every register of the file, every flag, `diag`, and every byte of memory outside the two it stores to, which
lie at the stack pointer it was given and the address after it (R80). -/
def Obligations.JsrKeepsRegistersFlagsAndOtherCells : Prop :=
  ∀ (target : Word) (s t : State), exec (.jsrAbs target) s = .next t →
    t.regs = s.regs ∧ t.p = s.p ∧ t.diag = s.diag ∧
    ∀ a, a ≠ s.sp → a ≠ s.sp + 1#16 → t.mem.read a = s.mem.read a

/-- An unsupported byte keeps every register, the stack pointer, every flag, the counter and every byte of memory, and
`pc` is not moved back (R90). -/
def Obligations.UnsupportedKeepsAllButDiag : Prop :=
  ∀ (b : Byte) (s t : State), exec (.unsupported b) s = .next t →
    t.regs = s.regs ∧ t.pc = s.pc ∧ t.sp = s.sp ∧ t.p = s.p ∧ t.cyc = s.cyc ∧ ∀ a, t.mem.read a = s.mem.read a

/-! ## Whole-machine rules -/

/-- Flags are written by the loads, which write Z and N only, and by `Reset`, which clears all six; C, I, D and V have at
the end of an `Execute` the values they had at its start, and are 0 in every state reached from construction by the
interface (R19). -/
def Obligations.FlagWriteDiscipline : Prop :=
  (∀ (i : Instr) (s t : State), exec i s = .next t →
    (t.p.c = s.p.c ∧ t.p.i = s.p.i ∧ t.p.d = s.p.d ∧ t.p.v = s.p.v) ∧
    (t.p ≠ s.p → ∃ d : Byte, i = .ldaImm d ∨ i = .ldaZp d ∨ i = .ldaZpX d)) ∧
  (∀ (c : Config) (budget : Cycles) (s : State),
    let t := (executeWith c budget s).st
    t.p.c = s.p.c ∧ t.p.i = s.p.i ∧ t.p.d = s.p.d ∧ t.p.v = s.p.v) ∧
  (∀ s : State, (hostReset s).p = ⟨false, false, false, false, false, false⟩) ∧
  ∀ s : State, Reachable s → s.p.c = false ∧ s.p.i = false ∧ s.p.d = false ∧ s.p.v = false

/-- Which instruction touches which register (R12): A is written by the loads alone and read by no step; X and Y are
written by no step, Y is read by none, and X only by a step of `LDA zp,X`; from construction and through the interface
X and Y stay 0. That A is not read: with another A beforehand a load answers the very same state, and any other step the
same state with that other A still in it. Y, and X but for `LDA zp,X`, are never written, so only the second form
arises. -/
def Obligations.RegisterUseDiscipline : Prop :=
  (∀ (i : Instr) (s t : State), exec i s = .next t →
    t.regs.x = s.regs.x ∧ t.regs.y = s.regs.y ∧
    (t.regs.a ≠ s.regs.a → ∃ d : Byte, i = .ldaImm d ∨ i = .ldaZp d ∨ i = .ldaZpX d)) ∧
  (∀ (s t : State) (v : Byte), step s = .next t →
    (s.RunsLoad → step (s.setReg .accumulator v) = .next t) ∧
    (¬ s.RunsLoad → step (s.setReg .accumulator v) = .next (t.setReg .accumulator v)) ∧
    step (s.setReg .indexY v) = .next (t.setReg .indexY v) ∧
    (s.mem.read s.pc ≠ 0xB5#8 → step (s.setReg .indexX v) = .next (t.setReg .indexX v))) ∧
  ∀ s : State, Reachable s → s.regs.x = 0#8 ∧ s.regs.y = 0#8

/-- No instruction reads a flag (R20): with any other flags `p` beforehand a step answers the same state, in which a load
has left the same Z and N, and every other flag is still that of `p`. -/
def Obligations.FlagsAreNeverRead : Prop :=
  ∀ (s t : State) (p : Status), step s = .next t →
    (s.RunsLoad → step { s with p := p } = .next { t with p := { p with z := t.p.z, n := t.p.n } }) ∧
    (¬ s.RunsLoad → step { s with p := p } = .next { t with p := p })

/-- JSR is the only instruction that writes memory, that reads or writes `sp`, and that sets `pc` to anything but the
address after the instruction (R84). -/
def Obligations.OnlyJsrStoresJumpsAndUsesSp : Prop :=
  ∀ (s t : State), s.cyc ≠ 0#32 → s.mem.read s.pc ≠ 0x20#8 → step s = .next t →
    t.mem = s.mem ∧ t.sp = s.sp ∧
    t.pc = s.pc + BitVec.ofNat 16 (opcodeOf (s.mem.read s.pc)).length ∧
    ∀ v, step { s with sp := v } = .next { t with sp := v }

/-- Memory is zero at construction; afterwards a cell changes only by `HostWrite` to it, or by a JSR that stores to it
(R45). (Construction makes a new memory.) -/
def Obligations.MemoryChangesOnlyByHostWriteOrJsr : Prop :=
  (∀ a, State.reset.mem.read a = 0#8) ∧
  (∀ s : State, (hostReset s).mem = s.mem) ∧
  (∀ (s t : State) (a : Word), step s = .next t → t.mem.read a ≠ s.mem.read a →
    s.mem.read s.pc = 0x20#8 ∧ (a = s.sp ∨ a = s.sp + 1#16)) ∧
  ∀ (op : HostOp) (s t : State) (a : Word), hostApply op s = some t → t.mem.read a ≠ s.mem.read a →
    op = .construct ∨ ∃ v, op = .write a v

/-- A diagnostic event is the sole effect of its step, beside the byte's fetch, and the list only grows at its end
(R22, R103 (b)). -/
def Obligations.DiagnosticIsTheSoleEffect : Prop :=
  ∀ (s t : State), step s = .next t →
    t.diag = s.diag ∨
      t = { s with pc := s.pc + 1#16, cyc := debited 1#32 s.cyc, diag := s.diag ++ [s.mem.read s.pc] }

/-- Within an `Execute` the counter never rises, and while it is not zero every step lowers it, by at most five (R27 (c),
R66). -/
def Obligations.CounterFallsWithEveryStep : Prop :=
  ∀ (s t : State), step s = .next t →
    t.cyc ≤ s.cyc ∧ (s.cyc ≠ 0#32 → t.cyc < s.cyc) ∧ s.cyc.toNat ≤ t.cyc.toNat + 5

/-- A store is seen by the very next fetch: a JSR to the cell it stores at, or to the one after, continues with the byte
it stored, although it ran with the bytes fetched before the store (R41, R127). -/
def Obligations.StoreIsSeenByTheNextFetch : Prop :=
  ∀ (ll hh : Byte) (s : State),
    s.cyc ≠ 0#32 → s.mem.read s.pc = 0x20#8 → s.mem.read (s.pc + 1#16) = ll → s.mem.read (s.pc + 2#16) = hh →
    ∃ t, step s = .next t ∧ t.pc = hh ++ ll ∧
      (hh ++ ll = s.sp → (fetch8 (.start t)).1 = lowByte (s.pc + 2#16)) ∧
      (hh ++ ll = s.sp + 1#16 → (fetch8 (.start t)).1 = highByte (s.pc + 2#16))

/-! ## Reset and the host -/

/-- `Reset` gives `pc`, `sp`, the registers and the flags their power-on values whatever they were, keeps memory and
`diag`, costs no cycle, and a second one changes nothing (R120). -/
def Obligations.ResetRestoresPowerOnValues : Prop :=
  ∀ s : State,
    hostReset s = { s with
      pc := 0xFFFC#16
      sp := 0x0100#16
      regs := ⟨0#8, 0#8, 0#8⟩
      p := ⟨false, false, false, false, false, false⟩ } ∧
    (hostReset s).p.raw = 0#8 ∧
    hostReset (hostReset s) = hostReset s

/-- The tables of R25: the state after construction, with every cell 0x00 and no event, and the state after `Reset`, which
is the same but for memory and `diag` (R25, R121). The counter, which exists in neither, is not spoken of. -/
def Obligations.ConstructionAndResetValues : Prop :=
  observe construct =
    { pc := 0xFFFC#16, sp := 0x0100#16, a := 0#8, x := 0#8, y := 0#8, raw := 0#8, diag := [] } ∧
  (∀ a, hostRead a construct = 0#8) ∧
  hostReset construct = construct ∧
  ∀ s : State,
    observe (hostReset s) = { observe construct with diag := s.diag } ∧ ∀ a, hostRead a (hostReset s) = hostRead a s

/-- `HostRead` returns the cell; `HostWrite` sets it and does nothing else (R43). -/
def Obligations.HostAccessIsDirect : Prop :=
  ∀ (a : Word) (v : Byte) (s : State),
    (∀ b, hostRead b (hostWrite a v s) = if b = a then v else hostRead b s) ∧
    hostWrite a v s = { s with mem := (hostWrite a v s).mem }

/-- The host moves only between two `Execute` calls, and there any of the six operations is possible: during one it can
neither change nor read memory or CPU state (R7, R8, R43). `HostRead` and `Observe` change nothing, and the operations
that change something answer nothing. That "between" is `cyc = 0` is the model's choice: log entry 1. -/
def Obligations.HostMovesOnlyBetweenExecutes : Prop :=
  ∀ (op : HostOp) (s : State), (hostCall op s = none ↔ s.cyc ≠ 0#32) ∧
    (s.cyc = 0#32 → hostCall op s = some
      (match op with
      | .construct => (.done, construct)
      | .reset => (.done, hostReset s)
      | .read a => (.byte (s.mem.read a), s)
      | .write a v => (.done, hostWrite a v s)
      | .observe => (.view ⟨s.pc, s.sp, s.regs.a, s.regs.x, s.regs.y, s.p.raw, s.diag⟩, s)
      | .execute budget => (.done, { s with cyc := budget }))) ∧
    hostApply op s = (hostCall op s).map Prod.snd

/-- `Observe` shows every element of CPU state: two states it does not tell apart differ only in memory and in the
counter (R7). -/
def Obligations.ObserveShowsAllCpuState : Prop :=
  ∀ s t : State, observe s = observe t → t = { s with mem := t.mem, cyc := t.cyc }

/-! ## Invariants -/

/-- The memory of the reset state is canonical, and the reset state meets the invariant of machines that were never
started elsewhere (log entry 7; R12, R19, R27 (d)). -/
def Obligations.ResetMeetsTheInvariants : Prop := State.reset.Inv ∧ State.reset.BootInv

/-- Every step keeps the memory canonical, from any state in which it is (log entry 7). -/
def Obligations.StepKeepsMemoryCanonical : Prop :=
  ∀ s t : State, s.Inv → step s = .next t → t.Inv

/-- Every host operation keeps the memory canonical (log entry 7). -/
def Obligations.HostKeepsMemoryCanonical : Prop :=
  ∀ (op : HostOp) (s t : State), s.Inv → hostApply op s = some t → t.Inv

/-- In canonical form, memories that read the same everywhere are equal data (log entry 7). -/
def Obligations.EqualReadsGiveEqualMemories : Prop :=
  ∀ m m' : Memory, m.wf = true → m'.wf = true → (∀ a, m.read a = m'.read a) → m = m'

/-- A step keeps X, Y and the flags C, I, D, V at 0 and never leaves Z and N both set (R12, R19, R70). -/
def Obligations.StepKeepsBootInvariant : Prop :=
  ∀ s t : State, s.BootInv → step s = .next t → t.BootInv

/-- In every state reached from construction by the interface the raw status is 0x00, 0x02 or 0x80, and X and Y are 0
(R27 (d)). -/
def Obligations.ReachableStatusValues : Prop :=
  ∀ s : State, Reachable s →
    s.regs.x = 0#8 ∧ s.regs.y = 0#8 ∧ (s.p.raw = 0x00#8 ∨ s.p.raw = 0x02#8 ∨ s.p.raw = 0x80#8)

/-! ## A whole `Execute` -/

/-- `Execute(n)` ends with nothing left, after at most `n` steps and none for `n = 0`, at the first boundary by which the
costs of the steps reach `n`; together they cost at least `n` and at most `n + 4` (R67 (a), (b)). -/
def Obligations.ExecuteEndsWithinItsBounds : Prop :=
  ∀ (c : Config) (n : Cycles) (s : State),
    let steps := executedInstrs c n s
    (executeWith c n s).st.cyc = 0#32 ∧
    steps.length ≤ n.toNat ∧
    (steps = [] ↔ n = 0#32) ∧
    n.toNat ≤ totalCycles steps ∧
    totalCycles steps ≤ n.toNat + 4 ∧
    (n ≠ 0#32 → totalCycles steps.dropLast < n.toNat)

/-- `Execute(n)` makes at most as many accesses as its steps cost, at most `n + 4`, and none for `n = 0` (R67 (c)). -/
def Obligations.ExecuteAccessesAreBounded : Prop :=
  ∀ (c : Config) (n : Cycles) (s : State),
    (executeWith c n s).trace.length ≤ totalCycles (executedInstrs c n s) ∧
    (executeWith c n s).trace.length ≤ n.toNat + 4 ∧
    (n = 0#32 → (executeWith c n s).trace = [])

/-- `Execute(n)` equals `Execute(n')` for the boundary value `n'` that `n` is rounded up to (R67 (d)). -/
def Obligations.ExecuteRoundsUpToABoundary : Prop :=
  ∀ (c : Config) (n n' : Cycles) (s : State),
    n'.toNat = totalCycles (executedInstrs c n s) → executeWith c n s = executeWith c n' s

/-- `Execute(budget)` is the iteration of the single step while cycles are left (R65): before each of its `k` steps the
counter is not zero, and after them the machine is in its final state, an instruction boundary. -/
def Obligations.ExecuteIsTheIteratedStep : Prop :=
  ∀ (budget : Cycles) (s : State),
    let k := (executedInstrs machineConfig budget s).length
    (∀ j < k, ∃ t, Host.Core.run Sys2Proof.core j (hostExecute budget s) = .next t ∧ t.cyc ≠ 0#32) ∧
    Host.Core.run Sys2Proof.core k (hostExecute budget s) = .next (execute budget s)

/-- Run for any number of steps from the budget up, the machine is in the final state of the `Execute` (R65, R67 (a)).
That steps after the end of a run keep the state is the model's choice: log entry 2. -/
def Obligations.RunsOfBudgetManyStepsReachTheEnd : Prop :=
  ∀ (budget : Cycles) (s : State) (k : Nat), budget.toNat ≤ k →
    Host.Core.run Sys2Proof.core k (hostExecute budget s) = .next (execute budget s)

/-- A run split at a boundary value is the run in one call, accesses included, and no call sees what an earlier one left
of its counter (R68; only the direction "if" of the rule's "exactly when": log entry 10). -/
def Obligations.RunsSplitAtBoundaries : Prop :=
  (∀ (c : Config) (a b : Cycles) (s : State),
    totalCycles (executedInstrs c a s) = a.toNat → a.toNat + b.toNat < 2 ^ 32 →
    let first := executeWith c a s
    let second := executeWith c b first.st
    (executeWith c (a + b) s).st = second.st ∧
    (executeWith c (a + b) s).trace = first.trace ++ second.trace) ∧
  ∀ (c : Config) (n left : Cycles) (s : State), executeWith c n { s with cyc := left } = executeWith c n s

/-- The stack after a row of JSRs (R82). With an advance of 1 each return address loses its high byte to the next, so only
the last is whole; with 2 all are. The lengths are those for which no cell is stored to again after a wrap. -/
def Obligations.StackAfterARowOfCalls : Prop :=
  (∀ (calls : List (Word × Word)) (s : State), calls.length ≤ 65535 →
    let t := callAll ⟨.one⟩ calls s
    t.sp = s.sp + BitVec.ofNat 16 calls.length ∧
    (∀ (i : Nat) (r target : Word), calls[i]? = some (r, target) →
      t.mem.read (s.sp + BitVec.ofNat 16 i) = lowByte r ∧
      (i + 1 = calls.length → t.mem.read (s.sp + BitVec.ofNat 16 (i + 1)) = highByte r))) ∧
  ∀ (calls : List (Word × Word)) (s : State), calls.length ≤ 32768 →
    let t := callAll ⟨.two⟩ calls s
    t.sp = s.sp + BitVec.ofNat 16 (2 * calls.length) ∧
    ∀ (i : Nat) (r target : Word), calls[i]? = some (r, target) →
      t.mem.read (s.sp + BitVec.ofNat 16 (2 * i)) = lowByte r ∧
      t.mem.read (s.sp + BitVec.ofNat 16 (2 * i + 1)) = highByte r
end

