-- ==== Sys2Proof/Laws/Memory.lean ====
section
/-! SUPPORT. The laws of one cell of memory: a read after a write, every other cell kept, the canonical form kept. -/

namespace Sys2Proof.Machine

/-! ## Reading, over the pieces of a write -/

theorem Memory.read_erase_same (m : Memory) (a : Word) : (Memory.erase m a.toNat).read a = unlistedByte := by
  induction m with
  | nil => rfl
  | cons cell m ih =>
    by_cases h : cell.1 = a.toNat
    · simpa [Memory.erase, h] using ih
    · have : Memory.erase (cell :: m) a.toNat = cell :: Memory.erase m a.toNat := by simp [Memory.erase, h]
      simp [this, Memory.read, h, ih]

theorem Memory.read_erase_ne (m : Memory) {a : Nat} {b : Word} (h : b.toNat ≠ a) :
    (Memory.erase m a).read b = m.read b := by
  induction m with
  | nil => rfl
  | cons cell m ih =>
    by_cases hc : cell.1 = a
    · have hb : cell.1 ≠ b.toNat := fun e => h (e ▸ hc)
      have : Memory.erase (cell :: m) a = Memory.erase m a := by simp [Memory.erase, hc]
      simp [this, Memory.read, hb, ih]
    · have : Memory.erase (cell :: m) a = cell :: Memory.erase m a := by simp [Memory.erase, hc]
      simp [this, Memory.read, ih]

theorem Memory.read_insert_same (m : Memory) (a : Word) (v : Byte) (h : ∀ cell ∈ m, cell.1 ≠ a.toNat) :
    (Memory.insert m a.toNat v).read a = v := by
  induction m with
  | nil => simp [Memory.insert, Memory.read]
  | cons cell m ih =>
    have hc : cell.1 ≠ a.toNat := h cell (by simp)
    have ih := ih fun c hm => h c (by simp [hm])
    by_cases hlt : a.toNat < cell.1
    · simp [Memory.insert, hlt, Memory.read]
    · simp [Memory.insert, hlt, Memory.read, hc, ih]

theorem Memory.read_insert_ne (m : Memory) {a : Nat} {b : Word} (v : Byte) (h : b.toNat ≠ a) :
    (Memory.insert m a v).read b = m.read b := by
  have h' : a ≠ b.toNat := fun e => h e.symm
  induction m with
  | nil => simp [Memory.insert, Memory.read, h']
  | cons cell m ih =>
    by_cases hlt : a < cell.1
    · simp [Memory.insert, hlt, Memory.read, h']
    · simp [Memory.insert, hlt, Memory.read, ih]

theorem Memory.erase_lists_not (m : Memory) (a : Nat) : ∀ cell ∈ Memory.erase m a, cell.1 ≠ a := by
  intro cell h
  simpa [Memory.erase] using (List.mem_filter.mp h).2

/-! ## Reading after writing (R31, R35) -/

/-- A read after a write to the same cell gives the value written. -/
@[simp] theorem Memory.read_write_same (m : Memory) (a : Word) (v : Byte) : (m.write a v).read a = v := by
  by_cases h : v = unlistedByte
  · simp [Memory.write, h, Memory.read_erase_same]
  · simp [Memory.write, h, Memory.read_insert_same _ _ _ (Memory.erase_lists_not m a.toNat)]

/-- A write leaves every other cell alone. -/
theorem Memory.read_write_ne (m : Memory) {a b : Word} (v : Byte) (h : b ≠ a) : (m.write a v).read b = m.read b := by
  have h' : b.toNat ≠ a.toNat := fun e => h (BitVec.eq_of_toNat_eq e)
  by_cases hv : v = unlistedByte
  · simp [Memory.write, hv, Memory.read_erase_ne m h']
  · simp [Memory.write, hv, Memory.read_insert_ne _ v h', Memory.read_erase_ne m h']

/-- Both in one equation. -/
theorem Memory.read_write (m : Memory) (a b : Word) (v : Byte) :
    (m.write a v).read b = if b = a then v else m.read b := by
  by_cases h : b = a
  · simp [h]
  · simp [h, Memory.read_write_ne m v h]

/-- Untouched memory reads 0x00 everywhere (R30). -/
@[simp] theorem Memory.read_nil (a : Word) : Memory.read [] a = 0#8 := rfl

/-! ## The canonical form -/

theorem Memory.wfFrom_cons (lo : Nat) (cell : Host.Cell) (m : Memory) :
    Memory.wfFrom lo (cell :: m) = true ↔
      lo ≤ cell.1 ∧ cell.1 < 65536 ∧ cell.2 ≠ unlistedByte ∧ Memory.wfFrom (cell.1 + 1) m = true := by
  simp [Memory.wfFrom, and_assoc]

theorem Memory.wfFrom_mono {lo lo' : Nat} (h : lo' ≤ lo) :
    ∀ {m : Memory}, Memory.wfFrom lo m = true → Memory.wfFrom lo' m = true
  | [], _ => rfl
  | cell :: m, hm => by
    rw [Memory.wfFrom_cons] at hm ⊢
    exact ⟨h.trans hm.1, hm.2⟩

theorem Memory.wfFrom_erase (a : Nat) : ∀ {lo : Nat} {m : Memory}, Memory.wfFrom lo m = true →
    Memory.wfFrom lo (Memory.erase m a) = true
  | _, [], _ => rfl
  | lo, cell :: m, h => by
    rw [Memory.wfFrom_cons] at h
    have ih := Memory.wfFrom_erase a h.2.2.2
    by_cases hc : cell.1 = a
    · have : Memory.erase (cell :: m) a = Memory.erase m a := by simp [Memory.erase, hc]
      rw [this]
      exact Memory.wfFrom_mono (by omega) ih
    · have : Memory.erase (cell :: m) a = cell :: Memory.erase m a := by simp [Memory.erase, hc]
      rw [this, Memory.wfFrom_cons]
      exact ⟨h.1, h.2.1, h.2.2.1, ih⟩

theorem Memory.wfFrom_insert {a : Nat} {v : Byte} (ha : a < 65536) (hv : v ≠ unlistedByte) :
    ∀ {lo : Nat} {m : Memory}, lo ≤ a → (∀ cell ∈ m, cell.1 ≠ a) → Memory.wfFrom lo m = true →
      Memory.wfFrom lo (Memory.insert m a v) = true
  | lo, [], hlo, _, _ => by
    rw [Memory.insert, Memory.wfFrom_cons]
    exact ⟨hlo, ha, hv, rfl⟩
  | lo, cell :: m, hlo, hne, h => by
    rw [Memory.wfFrom_cons] at h
    have hc : cell.1 ≠ a := hne cell (by simp)
    by_cases hlt : a < cell.1
    · rw [Memory.insert, if_pos hlt, Memory.wfFrom_cons, Memory.wfFrom_cons]
      exact ⟨hlo, ha, hv, hlt, h.2⟩
    · rw [Memory.insert, if_neg hlt, Memory.wfFrom_cons]
      exact ⟨h.1, h.2.1, h.2.2.1,
        Memory.wfFrom_insert ha hv (by omega) (fun c hm => hne c (by simp [hm])) h.2.2.2⟩

/-- A write keeps the canonical form. -/
theorem Memory.wf_write {m : Memory} (a : Word) (v : Byte) (h : m.wf = true) : (m.write a v).wf = true := by
  have he : Memory.wfFrom 0 (Memory.erase m a.toNat) = true := Memory.wfFrom_erase a.toNat h
  by_cases hv : v = unlistedByte
  · simpa [Memory.write, hv, Memory.wf] using he
  · have := Memory.wfFrom_insert a.isLt hv (Nat.zero_le _) (Memory.erase_lists_not m a.toNat) he
    simpa [Memory.write, hv, Memory.wf] using this

/-- The empty memory is canonical. -/
@[simp] theorem Memory.wf_nil : Memory.wf [] = true := rfl

end Sys2Proof.Machine
end

