-- ==== Sys2Proof/Laws/State.lean ====
section
/-! SUPPORT. What each update of a state does to each field, one lemma each, all true by rfl. -/

namespace Sys2Proof.Machine

variable (s : State)

/-! ## `State.setPc` -/

@[simp] theorem State.setPc_regs (v : Word) : (s.setPc v).regs = s.regs := rfl
@[simp] theorem State.setPc_pc (v : Word) : (s.setPc v).pc = v := rfl
@[simp] theorem State.setPc_sp (v : Word) : (s.setPc v).sp = s.sp := rfl
@[simp] theorem State.setPc_p (v : Word) : (s.setPc v).p = s.p := rfl
@[simp] theorem State.setPc_cyc (v : Word) : (s.setPc v).cyc = s.cyc := rfl
@[simp] theorem State.setPc_diag (v : Word) : (s.setPc v).diag = s.diag := rfl
@[simp] theorem State.setPc_mem (v : Word) : (s.setPc v).mem = s.mem := rfl

/-! ## `State.setSp` -/

@[simp] theorem State.setSp_regs (v : Word) : (s.setSp v).regs = s.regs := rfl
@[simp] theorem State.setSp_pc (v : Word) : (s.setSp v).pc = s.pc := rfl
@[simp] theorem State.setSp_sp (v : Word) : (s.setSp v).sp = v := rfl
@[simp] theorem State.setSp_p (v : Word) : (s.setSp v).p = s.p := rfl
@[simp] theorem State.setSp_cyc (v : Word) : (s.setSp v).cyc = s.cyc := rfl
@[simp] theorem State.setSp_diag (v : Word) : (s.setSp v).diag = s.diag := rfl
@[simp] theorem State.setSp_mem (v : Word) : (s.setSp v).mem = s.mem := rfl

/-! ## `State.setStatus` -/

@[simp] theorem State.setStatus_regs (v : Status) : (s.setStatus v).regs = s.regs := rfl
@[simp] theorem State.setStatus_pc (v : Status) : (s.setStatus v).pc = s.pc := rfl
@[simp] theorem State.setStatus_sp (v : Status) : (s.setStatus v).sp = s.sp := rfl
@[simp] theorem State.setStatus_p (v : Status) : (s.setStatus v).p = v := rfl
@[simp] theorem State.setStatus_cyc (v : Status) : (s.setStatus v).cyc = s.cyc := rfl
@[simp] theorem State.setStatus_diag (v : Status) : (s.setStatus v).diag = s.diag := rfl
@[simp] theorem State.setStatus_mem (v : Status) : (s.setStatus v).mem = s.mem := rfl

/-! ## `State.setCyc` -/

@[simp] theorem State.setCyc_regs (v : Cycles) : (s.setCyc v).regs = s.regs := rfl
@[simp] theorem State.setCyc_pc (v : Cycles) : (s.setCyc v).pc = s.pc := rfl
@[simp] theorem State.setCyc_sp (v : Cycles) : (s.setCyc v).sp = s.sp := rfl
@[simp] theorem State.setCyc_p (v : Cycles) : (s.setCyc v).p = s.p := rfl
@[simp] theorem State.setCyc_cyc (v : Cycles) : (s.setCyc v).cyc = v := rfl
@[simp] theorem State.setCyc_diag (v : Cycles) : (s.setCyc v).diag = s.diag := rfl
@[simp] theorem State.setCyc_mem (v : Cycles) : (s.setCyc v).mem = s.mem := rfl

/-! ## `State.setMem` -/

@[simp] theorem State.setMem_regs (v : Memory) : (s.setMem v).regs = s.regs := rfl
@[simp] theorem State.setMem_pc (v : Memory) : (s.setMem v).pc = s.pc := rfl
@[simp] theorem State.setMem_sp (v : Memory) : (s.setMem v).sp = s.sp := rfl
@[simp] theorem State.setMem_p (v : Memory) : (s.setMem v).p = s.p := rfl
@[simp] theorem State.setMem_cyc (v : Memory) : (s.setMem v).cyc = s.cyc := rfl
@[simp] theorem State.setMem_diag (v : Memory) : (s.setMem v).diag = s.diag := rfl
@[simp] theorem State.setMem_mem (v : Memory) : (s.setMem v).mem = v := rfl

/-! ## `State.emitUnsupported` -/

@[simp] theorem State.emitUnsupported_regs (v : Byte) : (s.emitUnsupported v).regs = s.regs := rfl
@[simp] theorem State.emitUnsupported_pc (v : Byte) : (s.emitUnsupported v).pc = s.pc := rfl
@[simp] theorem State.emitUnsupported_sp (v : Byte) : (s.emitUnsupported v).sp = s.sp := rfl
@[simp] theorem State.emitUnsupported_p (v : Byte) : (s.emitUnsupported v).p = s.p := rfl
@[simp] theorem State.emitUnsupported_cyc (v : Byte) : (s.emitUnsupported v).cyc = s.cyc := rfl
@[simp] theorem State.emitUnsupported_diag (v : Byte) : (s.emitUnsupported v).diag = s.diag ++ [v] := rfl
@[simp] theorem State.emitUnsupported_mem (v : Byte) : (s.emitUnsupported v).mem = s.mem := rfl

/-! ## `State.debit` -/

@[simp] theorem State.debit_regs (v : Cycles) : (s.debit v).regs = s.regs := rfl
@[simp] theorem State.debit_pc (v : Cycles) : (s.debit v).pc = s.pc := rfl
@[simp] theorem State.debit_sp (v : Cycles) : (s.debit v).sp = s.sp := rfl
@[simp] theorem State.debit_p (v : Cycles) : (s.debit v).p = s.p := rfl
@[simp] theorem State.debit_cyc (v : Cycles) : (s.debit v).cyc = debited v s.cyc := rfl
@[simp] theorem State.debit_diag (v : Cycles) : (s.debit v).diag = s.diag := rfl
@[simp] theorem State.debit_mem (v : Cycles) : (s.debit v).mem = s.mem := rfl

/-! ## `State.setZN` -/

@[simp] theorem State.setZN_regs (v : Byte) : (s.setZN v).regs = s.regs := rfl
@[simp] theorem State.setZN_pc (v : Byte) : (s.setZN v).pc = s.pc := rfl
@[simp] theorem State.setZN_sp (v : Byte) : (s.setZN v).sp = s.sp := rfl
@[simp] theorem State.setZN_p (v : Byte) : (s.setZN v).p = s.p.withZN v := rfl
@[simp] theorem State.setZN_cyc (v : Byte) : (s.setZN v).cyc = s.cyc := rfl
@[simp] theorem State.setZN_diag (v : Byte) : (s.setZN v).diag = s.diag := rfl
@[simp] theorem State.setZN_mem (v : Byte) : (s.setZN v).mem = s.mem := rfl

/-! ## `State.setReg` and `State.getReg` -/

@[simp] theorem State.setReg_pc (t : RegTag) (v : Byte) : (s.setReg t v).pc = s.pc := by cases t <;> rfl
@[simp] theorem State.setReg_sp (t : RegTag) (v : Byte) : (s.setReg t v).sp = s.sp := by cases t <;> rfl
@[simp] theorem State.setReg_p (t : RegTag) (v : Byte) : (s.setReg t v).p = s.p := by cases t <;> rfl
@[simp] theorem State.setReg_cyc (t : RegTag) (v : Byte) : (s.setReg t v).cyc = s.cyc := by cases t <;> rfl
@[simp] theorem State.setReg_diag (t : RegTag) (v : Byte) : (s.setReg t v).diag = s.diag := by cases t <;> rfl
@[simp] theorem State.setReg_mem (t : RegTag) (v : Byte) : (s.setReg t v).mem = s.mem := by cases t <;> rfl

/-- The three slots never alias (R11). -/
@[simp] theorem State.getReg_setReg (t u : RegTag) (v : Byte) :
    (s.setReg t v).getReg u = if u = t then v else s.getReg u := by cases t <;> cases u <;> rfl

@[simp] theorem State.getReg_accumulator : s.getReg .accumulator = s.regs.a := rfl
@[simp] theorem State.getReg_indexX : s.getReg .indexX = s.regs.x := rfl
@[simp] theorem State.getReg_indexY : s.getReg .indexY = s.regs.y := rfl

/-! ## `State.loadAccumulator` -/

@[simp] theorem State.loadAccumulator_regs (v : Byte) : (s.loadAccumulator v).regs = { s.regs with a := v } := rfl
@[simp] theorem State.loadAccumulator_p (v : Byte) : (s.loadAccumulator v).p = s.p.withZN v := rfl
@[simp] theorem State.loadAccumulator_pc (v : Byte) : (s.loadAccumulator v).pc = s.pc := rfl
@[simp] theorem State.loadAccumulator_sp (v : Byte) : (s.loadAccumulator v).sp = s.sp := rfl
@[simp] theorem State.loadAccumulator_cyc (v : Byte) : (s.loadAccumulator v).cyc = s.cyc := rfl
@[simp] theorem State.loadAccumulator_diag (v : Byte) : (s.loadAccumulator v).diag = s.diag := rfl
@[simp] theorem State.loadAccumulator_mem (v : Byte) : (s.loadAccumulator v).mem = s.mem := rfl

/-! ## `Status.withZN` (R70) -/

@[simp] theorem Status.withZN_c (v : Byte) (p : Status) : (p.withZN v).c = p.c := rfl
@[simp] theorem Status.withZN_z (v : Byte) (p : Status) : (p.withZN v).z = (v == 0x00#8) := rfl
@[simp] theorem Status.withZN_i (v : Byte) (p : Status) : (p.withZN v).i = p.i := rfl
@[simp] theorem Status.withZN_d (v : Byte) (p : Status) : (p.withZN v).d = p.d := rfl
@[simp] theorem Status.withZN_v (v : Byte) (p : Status) : (p.withZN v).v = p.v := rfl
@[simp] theorem Status.withZN_n (v : Byte) (p : Status) : (p.withZN v).n = v.getLsbD 7 := rfl

/-! ## The host's operations -/

@[simp] theorem hostReset_regs : (hostReset s).regs = ⟨0#8, 0#8, 0#8⟩ := rfl
@[simp] theorem hostReset_pc : (hostReset s).pc = Config.resetPc := rfl
@[simp] theorem hostReset_sp : (hostReset s).sp = Config.resetSp := rfl
@[simp] theorem hostReset_p : (hostReset s).p = ⟨false, false, false, false, false, false⟩ := rfl
@[simp] theorem hostReset_cyc : (hostReset s).cyc = s.cyc := rfl
@[simp] theorem hostReset_diag : (hostReset s).diag = s.diag := rfl
@[simp] theorem hostReset_mem : (hostReset s).mem = s.mem := rfl
@[simp] theorem hostWrite_regs (a : Word) (v : Byte) : (hostWrite a v s).regs = s.regs := rfl
@[simp] theorem hostWrite_pc (a : Word) (v : Byte) : (hostWrite a v s).pc = s.pc := rfl
@[simp] theorem hostWrite_sp (a : Word) (v : Byte) : (hostWrite a v s).sp = s.sp := rfl
@[simp] theorem hostWrite_p (a : Word) (v : Byte) : (hostWrite a v s).p = s.p := rfl
@[simp] theorem hostWrite_cyc (a : Word) (v : Byte) : (hostWrite a v s).cyc = s.cyc := rfl
@[simp] theorem hostWrite_diag (a : Word) (v : Byte) : (hostWrite a v s).diag = s.diag := rfl
@[simp] theorem hostWrite_mem (a : Word) (v : Byte) : (hostWrite a v s).mem = s.mem.write a v := rfl
@[simp] theorem hostExecute_regs (budget : Cycles) : (hostExecute budget s).regs = s.regs := rfl
@[simp] theorem hostExecute_pc (budget : Cycles) : (hostExecute budget s).pc = s.pc := rfl
@[simp] theorem hostExecute_sp (budget : Cycles) : (hostExecute budget s).sp = s.sp := rfl
@[simp] theorem hostExecute_p (budget : Cycles) : (hostExecute budget s).p = s.p := rfl
@[simp] theorem hostExecute_cyc (budget : Cycles) : (hostExecute budget s).cyc = budget := rfl
@[simp] theorem hostExecute_diag (budget : Cycles) : (hostExecute budget s).diag = s.diag := rfl
@[simp] theorem hostExecute_mem (budget : Cycles) : (hostExecute budget s).mem = s.mem := rfl

/-! ## A state with its trace -/

@[simp] theorem Traced.start_st : (Traced.start s).st = s := rfl
@[simp] theorem Traced.start_trace : (Traced.start s).trace = [] := rfl
@[simp] theorem Traced.on_st (t : Traced) (f : State → State) : (t.on f).st = f t.st := rfl
@[simp] theorem Traced.on_trace (t : Traced) (f : State → State) : (t.on f).trace = t.trace := rfl

/-- No cycle left, as a proposition (R61). -/
@[simp] theorem State.idle_eq_true_iff : s.idle = true ↔ s.cyc = 0#32 := by simp [State.idle]

@[simp] theorem State.idle_eq_false_iff : s.idle = false ↔ s.cyc ≠ 0#32 := by simp [State.idle]

/-! ## The host's moves (R8) -/

/-- All that a host operation can do: between two `Execute` calls, its reply and its effect. -/
theorem hostCall_eq_some_iff {op : HostOp} {r : HostReply} {t : State} :
    hostCall op s = some (r, t) ↔ s.cyc = 0#32 ∧ op.reply s = r ∧ op.effect s = t := by
  simp [hostCall]

/-- During an `Execute` the host has no move. -/
@[simp] theorem hostCall_eq_none_iff {op : HostOp} : hostCall op s = none ↔ s.cyc ≠ 0#32 := by simp [hostCall]

/-- The same of the state alone. -/
theorem hostApply_eq_some_iff {op : HostOp} {t : State} :
    hostApply op s = some t ↔ s.cyc = 0#32 ∧ op.effect s = t := by
  simp [hostApply, hostCall]

end Sys2Proof.Machine
end

