-- ==== Sys2Proof/Laws/Word.lean ====
section
/-! SUPPORT. The byte-order helpers and the opcode map. -/

namespace Sys2Proof

/-- Taking a 16-bit value apart and joining it gives it back (R32). -/
@[simp] theorem join16_lo8_hi8 (v : Word) : join16 (lo8 v) (hi8 v) = v := by
  apply BitVec.eq_of_getLsbD_eq
  intro k hk
  by_cases h : k < 8
  · simp [join16, lo8, hi8, zext16, h, hk]
  · simp [join16, lo8, hi8, zext16, h, hk, show 8 + (k - 8) = k by omega, show k - 8 < 8 by omega]

@[simp] theorem lo8_join16 (lo hi : Byte) : lo8 (join16 lo hi) = lo := by
  apply BitVec.eq_of_getLsbD_eq
  intro k hk
  simp [join16, lo8, zext16, hk, show k < 16 by omega]

@[simp] theorem hi8_join16 (lo hi : Byte) : hi8 (join16 lo hi) = hi := by
  apply BitVec.eq_of_getLsbD_eq
  intro k hk
  simp [join16, hi8, zext16, hk, show 8 + k < 16 by omega, show ¬ 8 + k < 8 by omega]

/-- A joined word is its two bytes side by side (R5). -/
theorem join16_eq_append (lo hi : Byte) : join16 lo hi = hi ++ lo := by
  apply BitVec.eq_of_getLsbD_eq
  intro k hk
  rw [BitVec.getLsbD_append]
  by_cases h : k < 8
  · simp [join16, zext16, h, hk]
  · simp [join16, zext16, h, hk, BitVec.getLsbD_of_ge lo k (by omega)]

/-- The value of a joined word (R5). -/
theorem toNat_join16 (lo hi : Byte) : (join16 lo hi).toNat = lo.toNat + 256 * hi.toNat := by
  rw [join16_eq_append, BitVec.toNat_append, ← Nat.shiftLeft_add_eq_or_of_lt lo.isLt, Nat.shiftLeft_eq]
  omega

/-- `v[7:0]` as a truncation. -/
theorem lo8_eq_setWidth (v : Word) : lo8 v = v.setWidth 8 := by
  apply BitVec.eq_of_getLsbD_eq
  intro k hk
  simp [lo8, hk, show k < 16 by omega]

/-- `v[15:8]` as a shift and a truncation. -/
theorem hi8_eq_setWidth (v : Word) : hi8 v = (v >>> 8).setWidth 8 := by
  apply BitVec.eq_of_getLsbD_eq
  intro k hk
  simp [hi8, hk, show k < 16 by omega]

theorem toNat_zext16 (v : Byte) : (zext16 v).toNat = v.toNat := by
  have : v.toNat < 65536 := by have := v.isLt; omega
  simpa [zext16] using this

/-- An address differs from the next one, also at the wrap (R33). -/
theorem Word.add_one_ne (a : Word) : a + 1#16 ≠ a := by
  intro h
  have h1 := congrArg BitVec.toNat h
  have h2 := a.isLt
  rw [BitVec.toNat_add] at h1
  simp at h1
  omega

/-- The address after the operand, minus one, is the address of the last operand byte (R81). -/
theorem Word.add_three_sub_one (a : Word) : a + 3#16 - 1#16 = a + 2#16 := by
  rw [show (3#16 : Word) = 2#16 + 1#16 from rfl, ← BitVec.add_assoc, BitVec.add_sub_cancel]

theorem Word.add_one_add_one (a : Word) : a + 1#16 + 1#16 = a + 2#16 := by
  rw [BitVec.add_assoc]; rfl

/-! ## The opcode map (R52, R57) -/

@[simp] theorem opcodeOf_ldaImm : opcodeOf 0xA9#8 = .ldaImm := rfl
@[simp] theorem opcodeOf_ldaZp : opcodeOf 0xA5#8 = .ldaZp := rfl
@[simp] theorem opcodeOf_ldaZpX : opcodeOf 0xB5#8 = .ldaZpX := rfl
@[simp] theorem opcodeOf_jsrAbs : opcodeOf 0x20#8 = .jsrAbs := rfl

/-- A byte selects "unsupported" when it is none of the four of the closed set. -/
theorem opcodeOf_unsupported_iff (b : Byte) : opcodeOf b = .unsupported ↔ supportedOpcodes.contains b = false := by
  simp only [opcodeOf, supportedOpcodes]
  repeat' split
  all_goals simp_all

/-- An opcode other than "unsupported" has one byte. -/
theorem byte_of_opcodeOf {b : Byte} {o : Opcode} (h : opcodeOf b = o) :
    (o = .ldaImm ∧ b = 0xA9#8) ∨ (o = .ldaZp ∧ b = 0xA5#8) ∨ (o = .ldaZpX ∧ b = 0xB5#8) ∨ (o = .jsrAbs ∧ b = 0x20#8) ∨
      o = .unsupported := by
  subst h
  simp only [opcodeOf]
  repeat' split
  all_goals simp_all

end Sys2Proof
end

