-- ==== Sys2Proof/Laws/Ops.lean ====
section
/-! SUPPORT. One lemma per shared operation, saying once everything it does. -/

namespace Sys2Proof.Machine

/-! ## The debit (R64) -/

/-- The saturating debit is the truncated subtraction of natural numbers. -/
theorem toNat_debited (k c : Cycles) : (debited k c).toNat = c.toNat - k.toNat := by
  unfold debited
  split
  · next h => exact BitVec.toNat_sub_of_le h
  · next h =>
    have : c.toNat < k.toNat := by simpa [BitVec.le_def] using h
    simp
    omega

/-- Two debits are one debit of the sum. -/
theorem debited_debited {k l : Cycles} (c : Cycles) (h : k.toNat + l.toNat < 2 ^ 32) :
    debited k (debited l c) = debited (k + l) c := by
  apply BitVec.eq_of_toNat_eq
  rw [toNat_debited, toNat_debited, toNat_debited, BitVec.toNat_add, Nat.mod_eq_of_lt h]
  omega

@[simp] theorem debited_zero (k : Cycles) : debited k 0#32 = 0#32 := by
  apply BitVec.eq_of_toNat_eq
  simp [toNat_debited]

/-- A debit of one from a counter that is not zero takes it lower. -/
theorem toNat_debited_lt {k c : Cycles} (hc : c ≠ 0#32) (hk : k ≠ 0#32) : (debited k c).toNat < c.toNat := by
  have hc' : c.toNat ≠ 0 := fun e => hc (BitVec.eq_of_toNat_eq e)
  have hk' : k.toNat ≠ 0 := fun e => hk (BitVec.eq_of_toNat_eq e)
  rw [toNat_debited]
  omega

/-! ## The memory primitives (R31) -/

variable (t : Traced) (a : Word) (v : Byte)

@[simp] theorem memRead_fst : (memRead a t).1 = t.st.mem.read a := rfl
@[simp] theorem memRead_st : (memRead a t).2.st = t.st := rfl
@[simp] theorem memRead_trace : (memRead a t).2.trace = t.trace ++ [.read a (t.st.mem.read a)] := rfl
@[simp] theorem memWrite_st : (memWrite a v t).st = t.st.setMem (t.st.mem.write a v) := rfl
@[simp] theorem memWrite_trace : (memWrite a v t).trace = t.trace ++ [.write a v] := rfl

/-! ## `Write16` (R33) -/

@[simp] theorem write16_st (w : Word) :
    (write16 w a t).st
      = (t.st.setMem ((t.st.mem.write a (lo8 w)).write (a + 1#16) (hi8 w))).debit 1#32 := rfl

@[simp] theorem write16_trace (w : Word) :
    (write16 w a t).trace = t.trace ++ [.write a (lo8 w), .write (a + 1#16) (hi8 w)] := by
  simp [write16]

/-- What any cell holds after the two byte writes of `Write16`. -/
theorem Memory.read_write16 (m : Memory) (a b : Word) (lo hi : Byte) :
    ((m.write a lo).write (a + 1#16) hi).read b = if b = a + 1#16 then hi else if b = a then lo else m.read b := by
  simp only [Memory.read_write]

/-- The same with the low byte's address first: the two addresses always differ (R33). -/
theorem Memory.read_write16_low_first (m : Memory) (a b : Word) (lo hi : Byte) :
    ((m.write a lo).write (a + 1#16) hi).read b = if b = a then lo else if b = a + 1#16 then hi else m.read b := by
  rw [Memory.read_write16]
  by_cases h : b = a
  · simp [h, (Word.add_one_ne a).symm]
  · simp [h]

/-! ## Instruction fetch (R62, R63) -/

/-- The state after `n` bytes of the instruction stream have been fetched. -/
def State.fetched (n : Nat) (s : State) : State :=
  { s with pc := s.pc + BitVec.ofNat 16 n, cyc := debited (BitVec.ofNat 32 n) s.cyc }

@[simp] theorem State.fetched_regs (n : Nat) (s : State) : (s.fetched n).regs = s.regs := rfl
@[simp] theorem State.fetched_pc (n : Nat) (s : State) : (s.fetched n).pc = s.pc + BitVec.ofNat 16 n := rfl
@[simp] theorem State.fetched_sp (n : Nat) (s : State) : (s.fetched n).sp = s.sp := rfl
@[simp] theorem State.fetched_p (n : Nat) (s : State) : (s.fetched n).p = s.p := rfl
@[simp] theorem State.fetched_cyc (n : Nat) (s : State) :
    (s.fetched n).cyc = debited (BitVec.ofNat 32 n) s.cyc := rfl
@[simp] theorem State.fetched_diag (n : Nat) (s : State) : (s.fetched n).diag = s.diag := rfl
@[simp] theorem State.fetched_mem (n : Nat) (s : State) : (s.fetched n).mem = s.mem := rfl

@[simp] theorem fetch8_fst : (fetch8 t).1 = t.st.mem.read t.st.pc := rfl
@[simp] theorem fetch8_st : (fetch8 t).2.st = t.st.fetched 1 := rfl
@[simp] theorem fetch8_trace :
    (fetch8 t).2.trace = t.trace ++ [.read t.st.pc (t.st.mem.read t.st.pc)] := rfl

/-- One fetch after another. -/
theorem State.fetched_fetched (m n : Nat) (h : m + n < 2 ^ 32) (s : State) :
    (s.fetched m).fetched n = s.fetched (m + n) := by
  have hk : (BitVec.ofNat 32 n : Cycles).toNat + (BitVec.ofNat 32 m : Cycles).toNat < 2 ^ 32 := by
    simp only [BitVec.toNat_ofNat]
    have := Nat.mod_le n (2 ^ 32)
    have := Nat.mod_le m (2 ^ 32)
    omega
  simp only [State.fetched, debited_debited _ hk, BitVec.add_assoc, ← BitVec.ofNat_add, Nat.add_comm n m]

@[simp] theorem fetch16_fst :
    (fetch16 t).1 = join16 (t.st.mem.read t.st.pc) (t.st.mem.read (t.st.pc + 1#16)) := rfl

@[simp] theorem fetch16_st : (fetch16 t).2.st = t.st.fetched 2 := by
  rw [← State.fetched_fetched 1 1 (by decide)]
  rfl

@[simp] theorem fetch16_trace :
    (fetch16 t).2.trace = t.trace ++
      [.read t.st.pc (t.st.mem.read t.st.pc), .read (t.st.pc + 1#16) (t.st.mem.read (t.st.pc + 1#16))] := by
  simp [fetch16]

end Sys2Proof.Machine
end

