-- ==== Sys2Proof/Laws/Meanings.lean ====
section
/-! SUPPORT. One lemma per meaning's operation: the state and the accesses it leaves, in terms of the state it is given. -/

namespace Sys2Proof.Machine

variable (t : Traced)

/-! ## Data reads (R72, R73) -/

@[simp] theorem readData_fst (a : Word) : (readData a t).1 = t.st.mem.read a := rfl
@[simp] theorem readData_st (a : Word) : (readData a t).2.st = t.st.debit 1#32 := rfl
@[simp] theorem readData_trace (a : Word) :
    (readData a t).2.trace = t.trace ++ [.read a (t.st.mem.read a)] := rfl

/-! ## The loads (R71 to R73) -/

@[simp] theorem ldaImm_st (v : Byte) : (ldaImm v t).st = t.st.loadAccumulator v := rfl
@[simp] theorem ldaImm_trace (v : Byte) : (ldaImm v t).trace = t.trace := rfl

@[simp] theorem ldaZp_st (d : Byte) :
    (ldaZp d t).st = (t.st.debit 1#32).loadAccumulator (t.st.mem.read (eaZp d)) := rfl
@[simp] theorem ldaZp_trace (d : Byte) :
    (ldaZp d t).trace = t.trace ++ [.read (eaZp d) (t.st.mem.read (eaZp d))] := rfl

@[simp] theorem ldaZpX_st (d : Byte) :
    (ldaZpX d t).st = ((t.st.debit 1#32).debit 1#32).loadAccumulator (t.st.mem.read (eaZpX d t.st.regs.x)) := rfl
@[simp] theorem ldaZpX_trace (d : Byte) :
    (ldaZpX d t).trace
      = t.trace ++ [.read (eaZpX d t.st.regs.x) (t.st.mem.read (eaZpX d t.st.regs.x))] := rfl

/-! ## The subroutine call (R80) -/

/-- JSR's two bytes as the memory after it. -/
def State.afterPush (s : State) (ret : Word) : Memory :=
  (s.mem.write s.sp (lo8 ret)).write (s.sp + 1#16) (hi8 ret)

@[simp] theorem jsrAbs_regs (c : Config) (target : Word) : (jsrAbs c target t).st.regs = t.st.regs := rfl
@[simp] theorem jsrAbs_pc (c : Config) (target : Word) : (jsrAbs c target t).st.pc = target := rfl
@[simp] theorem jsrAbs_sp (c : Config) (target : Word) :
    (jsrAbs c target t).st.sp = t.st.sp + SpAdvance.toWord c.jsrSpAdvance := rfl
@[simp] theorem jsrAbs_p (c : Config) (target : Word) : (jsrAbs c target t).st.p = t.st.p := rfl
@[simp] theorem jsrAbs_cyc (c : Config) (target : Word) :
    (jsrAbs c target t).st.cyc = debited 1#32 (debited 1#32 t.st.cyc) := rfl
@[simp] theorem jsrAbs_diag (c : Config) (target : Word) : (jsrAbs c target t).st.diag = t.st.diag := rfl
@[simp] theorem jsrAbs_mem (c : Config) (target : Word) :
    (jsrAbs c target t).st.mem = t.st.afterPush (t.st.pc - 1#16) := rfl
@[simp] theorem jsrAbs_trace (c : Config) (target : Word) :
    (jsrAbs c target t).trace = t.trace ++
      [.write t.st.sp (lo8 (t.st.pc - 1#16)), .write (t.st.sp + 1#16) (hi8 (t.st.pc - 1#16))] := by
  simp [jsrAbs, pushReturn, returnAddress]

/-! ## An unsupported byte (R90) -/

@[simp] theorem unsupported_st (b : Byte) : (unsupported b t).st = t.st.emitUnsupported b := rfl
@[simp] theorem unsupported_trace (b : Byte) : (unsupported b t).trace = t.trace := rfl

/-! ## Every meaning -/

/-- `exec` is `perform` without its accesses, for this machine's parameter. -/
theorem exec_eq_perform (i : Instr) (s : State) :
    exec i s = .next (perform machineConfig i (.start s)).st := by
  cases i <;> rfl

/-- No meaning looks at the accesses already made. -/
theorem perform_st (c : Config) (i : Instr) (t : Traced) :
    (perform c i t).st = (perform c i (.start t.st)).st := by
  cases i <;> rfl

/-- What a meaning leaves of every field a load or a call does not write: X, Y and four of the flags. -/
theorem perform_keeps (c : Config) (i : Instr) (t : Traced) :
    (perform c i t).st.regs.x = t.st.regs.x ∧ (perform c i t).st.regs.y = t.st.regs.y ∧
      (perform c i t).st.p.c = t.st.p.c ∧ (perform c i t).st.p.i = t.st.p.i ∧
      (perform c i t).st.p.d = t.st.p.d ∧ (perform c i t).st.p.v = t.st.p.v := by
  cases i <;> exact ⟨rfl, rfl, rfl, rfl, rfl, rfl⟩

end Sys2Proof.Machine
end

