-- ==== Sys2Proof/Laws/Loop.lean ====
section
/-! SUPPORT. The fetch of an instruction, the two cases of a step, and one pass of the loop. -/

namespace Sys2Proof.Machine

/-! ## Fetching an instruction (R51, R54, R60) -/

/-- The fetched instruction, by the byte at `pc`. -/
theorem fetchInstr_fst (t : Traced) :
    (fetchInstr t).1 =
      match opcodeOf (t.st.mem.read t.st.pc) with
      | .ldaImm => .ldaImm (t.st.mem.read (t.st.pc + 1#16))
      | .ldaZp => .ldaZp (t.st.mem.read (t.st.pc + 1#16))
      | .ldaZpX => .ldaZpX (t.st.mem.read (t.st.pc + 1#16))
      | .jsrAbs => .jsrAbs (join16 (t.st.mem.read (t.st.pc + 1#16)) (t.st.mem.read (t.st.pc + 1#16 + 1#16)))
      | .unsupported => .unsupported (t.st.mem.read t.st.pc) := by
  unfold fetchInstr
  simp only [fetch8_fst]
  split <;> simp_all

/-- The fetched instruction has the opcode of the byte at `pc`. -/
theorem fetchInstr_opcode (t : Traced) : (fetchInstr t).1.opcode = opcodeOf (t.st.mem.read t.st.pc) := by
  rw [fetchInstr_fst]
  split <;> simp_all [Instr.opcode]

/-- A fetch moves `pc` past the instruction, debits a cycle per byte and changes nothing else. -/
theorem fetchInstr_st (t : Traced) : (fetchInstr t).2.st = t.st.fetched (fetchInstr t).1.length := by
  have h2 := State.fetched_fetched 1 1 (by decide) t.st
  have h3 := State.fetched_fetched 1 2 (by decide) t.st
  unfold fetchInstr
  simp only [fetch8_fst]
  split <;> simp [Instr.length, Instr.opcode, Opcode.length, h2, h3]

/-- The accesses of a fetch: one read per byte, in address order (R46, R66). -/
theorem fetchInstr_trace (t : Traced) :
    (fetchInstr t).2.trace = t.trace ++
      match opcodeOf (t.st.mem.read t.st.pc) with
      | .jsrAbs => [.read t.st.pc (t.st.mem.read t.st.pc),
          .read (t.st.pc + 1#16) (t.st.mem.read (t.st.pc + 1#16)),
          .read (t.st.pc + 1#16 + 1#16) (t.st.mem.read (t.st.pc + 1#16 + 1#16))]
      | .unsupported => [.read t.st.pc (t.st.mem.read t.st.pc)]
      | _ => [.read t.st.pc (t.st.mem.read t.st.pc), .read (t.st.pc + 1#16) (t.st.mem.read (t.st.pc + 1#16))] := by
  unfold fetchInstr
  simp only [fetch8_fst]
  split <;> simp_all

/-- A fetch does not look at the accesses already made. -/
theorem fetchInstr_fst_start (t : Traced) : (fetchInstr t).1 = (fetchInstr (.start t.st)).1 := by
  simp only [fetchInstr_fst, Traced.start_st]

/-! ## The two cases of a step (R61) -/

/-- With no cycle left nothing moves. -/
theorem step_idle {s : State} (h : s.cyc = 0#32) : step s = .next s := by
  simp [step, boundaryStep, State.idle, h]

/-- With a cycle left the step is the body of the loop. -/
theorem step_running {s : State} (h : s.cyc ≠ 0#32) :
    step s = .next (bodyWith machineConfig (.start s)).st := by
  simp only [step, boundaryStep, State.idle, beq_iff_eq, h, if_false, exec_eq_perform, bodyWith]
  exact congrArg _ (perform_st _ _ _).symm

/-- Everything a step can do: nothing, or one whole instruction. -/
theorem step_cases {s t : State} (h : step s = .next t) :
    (s.cyc = 0#32 ∧ t = s) ∨ (s.cyc ≠ 0#32 ∧ t = (bodyWith machineConfig (.start s)).st) := by
  by_cases hc : s.cyc = 0#32
  · rw [step_idle hc] at h
    exact .inl ⟨hc, by injection h with h; exact h.symm⟩
  · rw [step_running hc] at h
    exact .inr ⟨hc, by injection h with h; exact h.symm⟩

/-- The body of the loop does not look at the accesses already made. -/
theorem bodyWith_st (c : Config) (t : Traced) : (bodyWith c t).st = (bodyWith c (.start t.st)).st := by
  simp only [bodyWith]
  rw [perform_st, perform_st c _ (fetchInstr (.start t.st)).2, fetchInstr_st, fetchInstr_st, fetchInstr_fst_start,
    Traced.start_st]

/-- One pass in one equation: the meaning, at the state after the instruction's fetch. -/
theorem bodyWith_start_st (c : Config) (s : State) :
    (bodyWith c (.start s)).st =
      (perform c (fetchInstr (.start s)).1 (.start (s.fetched (fetchInstr (.start s)).1.length))).st := by
  simp only [bodyWith]
  rw [perform_st, fetchInstr_st, Traced.start_st]

/-! ## The loop (R60, R61) -/

/-- Where the run is over the loop does nothing. -/
theorem loopWith_idle (c : Config) (n : Nat) {t : Traced} (h : t.st.idle = true) : loopWith c n t = t := by
  cases n <;> simp [loopWith, h]

theorem loopInstrs_idle (c : Config) (n : Nat) {t : Traced} (h : t.st.idle = true) : loopInstrs c n t = [] := by
  cases n <;> simp [loopInstrs, h]

/-- Where it is not, the loop is one pass and the rest. -/
theorem loopWith_running (c : Config) (n : Nat) {t : Traced} (h : t.st.idle = false) :
    loopWith c (n + 1) t = loopWith c n (bodyWith c t) := by
  simp [loopWith, h]

theorem loopInstrs_running (c : Config) (n : Nat) {t : Traced} (h : t.st.idle = false) :
    loopInstrs c (n + 1) t = (fetchInstr t).1 :: loopInstrs c n (bodyWith c t) := by
  simp [loopInstrs, h]

theorem totalCycles_cons (i : Instr) (is : List Instr) : totalCycles (i :: is) = i.cycles + totalCycles is := by
  simp [totalCycles]

end Sys2Proof.Machine
end

