-- ==== Sys2Proof/Laws/PerInstr.lean ====
section
/-! SUPPORT. The families of statements about every instruction as syntax, one lemma per constructor. -/

namespace Sys2Proof

/-- An encoding has the length its opcode byte gives it, and its first byte selects the instruction (R50, R54). -/
def Laws.EncodingShape.Statement (i : Instr) : Prop :=
  i.wf = true → (encode i).length = i.length ∧ ((encode i).head?.map opcodeOf) = some i.opcode

theorem Laws.EncodingShape.jsrAbs (target : Word) : Laws.EncodingShape.Statement (.jsrAbs target) :=
  fun _ => ⟨rfl, rfl⟩

theorem Laws.EncodingShape.ldaZp (d8 : Byte) : Laws.EncodingShape.Statement (.ldaZp d8) := fun _ => ⟨rfl, rfl⟩

theorem Laws.EncodingShape.ldaImm (imm8 : Byte) : Laws.EncodingShape.Statement (.ldaImm imm8) := fun _ => ⟨rfl, rfl⟩

theorem Laws.EncodingShape.ldaZpX (d8 : Byte) : Laws.EncodingShape.Statement (.ldaZpX d8) := fun _ => ⟨rfl, rfl⟩

theorem Laws.EncodingShape.unsupported (b : Byte) : Laws.EncodingShape.Statement (.unsupported b) := by
  intro h
  have hb : opcodeOf b = .unsupported := (opcodeOf_unsupported_iff b).mpr (by simpa [Instr.wf] using h)
  exact ⟨rfl, by simp [encode, Instr.opcode, hb]⟩

end Sys2Proof
end

