-- ==== Sys2Proof/Tests/Slice0.lean ====
section
/-! SUPPORT. The model's own tests. Expected values are the vectors V<n> of spec/95_test_vectors.md or are worked out by
hand from the rule named; the `witness_` theorems show that the hypotheses of a statement can be met. -/

namespace Sys2Proof.Machine

/-! ## Small states and readings of an outcome -/

/-- The reset state with `pc`, a budget, and bytes at `pc`. -/
def Tests.at (pc : Word) (budget : Cycles) (bytes : List Byte) : State :=
  ({ State.reset with pc := pc, cyc := budget } : State).withBytesAt pc bytes

/-- The next state, where there is one. -/
def Tests.nextOf (o : Host.Outcome State Fault Refusal) : Option State :=
  match o with
  | .next s => some s
  | .fault _ => none
  | .refused _ => none

theorem Tests.eq_next {o : Host.Outcome State Fault Refusal} {t : State} (h : Tests.nextOf o = some t) : o = .next t := by
  cases o with
  | next s => exact congrArg _ (Option.some.inj h)
  | fault r => cases h
  | refused r => cases h

/-- What a test looks at: A, `P.raw`, `pc`, `sp`, `cyc`. -/
def Tests.view (o : Host.Outcome State Fault Refusal) : Option (Byte × Byte × Word × Word × Cycles) :=
  (Tests.nextOf o).map fun s => (s.regs.a, s.p.raw, s.pc, s.sp, s.cyc)

/-- Cells of the next state. -/
def Tests.cells (o : Host.Outcome State Fault Refusal) (addrs : List Word) : Option (List Byte) :=
  (Tests.nextOf o).map fun s => addrs.map s.mem.read

/-- The flags C, I, D and V set: raw 0x4D. -/
def Tests.cidv : Status := ⟨true, false, true, true, true, false⟩

/-! ## Well-formedness: the check refuses each supported opcode as an unsupported byte (R53) -/

theorem test_wf_refuses_supported_bytes :
    (Instr.unsupported 0x20#8).wf = false ∧ (Instr.unsupported 0xA5#8).wf = false ∧
    (Instr.unsupported 0xA9#8).wf = false ∧ (Instr.unsupported 0xB5#8).wf = false := by decide

theorem test_wf_admits_the_rest :
    (Instr.unsupported 0xEA#8).wf = true ∧ (Instr.unsupported 0x00#8).wf = true ∧ (Instr.jsrAbs 0xFFFF#16).wf = true ∧
    (Instr.ldaZp 0xFF#8).wf = true ∧ (Instr.ldaImm 0xA9#8).wf = true ∧ (Instr.ldaZpX 0x00#8).wf = true := by decide

/-! ## Decoding, by words written bit by bit from R50 and R52 -/

theorem test_decode_jsr_abs :
    decode [0b00100000#8, 0b00110100#8, 0b00010010#8] = .ok (.jsrAbs 0x1234#16, []) := by decide

theorem test_decode_lda_zp : decode [0b10100101#8, 0b00010000#8] = .ok (.ldaZp 0x10#8, []) := by decide

theorem test_decode_lda_imm : decode [0b10101001#8, 0b10000100#8] = .ok (.ldaImm 0x84#8, []) := by decide

theorem test_decode_lda_zp_x : decode [0b10110101#8, 0b11110101#8] = .ok (.ldaZpX 0xF5#8, []) := by decide

/-- The neighbours of the four opcodes and samples of the rest (section 2.6 of the vectors). -/
theorem test_decode_unsupported :
    [0x00#8, 0x1F#8, 0x21#8, 0x60#8, 0xA4#8, 0xA6#8, 0xA8#8, 0xAA#8, 0xAD#8, 0xB4#8, 0xB6#8, 0xBD#8, 0xEA#8, 0xFF#8].all
      (fun b => decide (decode [b] = .ok (.unsupported b, []))) = true := by decide

theorem test_decode_rejects_by_name :
    decode [] = .error .noBytes ∧ decode [0x20#8, 0x34#8] = .error (.operandMissing 0x20#8) ∧
    decode [0xB5#8] = .error (.operandMissing 0xB5#8) := by decide

/-- The table's numbering: the second byte is bits 15 to 8; bits from `nbits` up are zero. -/
theorem test_decode_table_word :
    decodeTableWord 24 0x123420 = some (.jsrAbs 0x1234#16) ∧ decodeTableWord 8 0x20 = some (.jsrAbs 0x0000#16) ∧
    decodeTableWord 16 0x10A5 = some (.ldaZp 0x10#8) ∧ decodeTableWord 8 0xFFA9 = some (.ldaImm 0x00#8) ∧
    decodeTableWord 8 0xEA = some (.unsupported 0xEA#8) := by decide

/-! ## `LDA #imm` -/

/-- V6: C, I, D, V kept, Z added. -/
theorem test_lda_imm_zero_keeps_other_flags :
    Tests.view (step { Tests.at 0x0200#16 2#32 [0xA9#8, 0x00#8] with p := Tests.cidv })
      = some (0x00#8, 0x4F#8, 0x0202#16, 0x0100#16, 0#32) := by decide

/-- V9: the operand is fetched across the wrap. -/
theorem test_lda_imm_wraps_pc :
    Tests.view (step (Tests.at 0xFFFF#16 2#32 [0xA9#8, 0x80#8]))
      = some (0x80#8, 0x80#8, 0x0001#16, 0x0100#16, 0#32) := by decide

/-! ## `LDA zp` -/

/-- V12: the instruction reads its own opcode. -/
theorem test_lda_zp_reads_own_opcode :
    Tests.view (step (Tests.at 0x0010#16 3#32 [0xA5#8, 0x10#8]))
      = some (0xA5#8, 0x80#8, 0x0012#16, 0x0100#16, 0#32) := by decide

/-- V14: it completes on a budget of 1. -/
theorem test_lda_zp_completes_on_budget_one :
    Tests.view (step (hostWrite 0x0010#16 0x7F#8 (Tests.at 0x0200#16 1#32 [0xA5#8, 0x10#8])))
      = some (0x7F#8, 0x00#8, 0x0202#16, 0x0100#16, 0#32) := by decide

/-! ## `LDA zp,X` -/

/-- R73's example: the index wraps in page 0 and 0x0115 is not read. -/
theorem test_lda_zp_x_wraps_in_page_zero :
    Tests.view (step (hostWrite 0x0115#16 0x11#8 (hostWrite 0x0015#16 0x80#8
      ((Tests.at 0x0204#16 9#32 [0xB5#8, 0xF5#8]).setReg .indexX 0x20#8))))
      = some (0x80#8, 0x80#8, 0x0206#16, 0x0100#16, 5#32) := by decide

/-- V25 and V26: zero result, C kept, no carry from the index sum. -/
theorem test_lda_zp_x_accesses :
    (bodyWith machineConfig (.start ((Tests.at 0x0200#16 4#32 [0xB5#8, 0xFF#8]).setReg .indexX 0x01#8))).trace
      = [.read 0x0200#16 0xB5#8, .read 0x0201#16 0xFF#8, .read 0x0000#16 0x00#8] := by decide

/-! ## `JSR abs` -/

/-- V34: the 16-bit store and `sp` wrap. -/
theorem test_jsr_wraps_store_and_sp :
    Tests.view (step { Tests.at 0x0200#16 5#32 [0x20#8, 0x34#8, 0x12#8] with sp := 0xFFFF#16 })
      = some (0x00#8, 0x00#8, 0x1234#16, 0x0000#16, 0#32) ∧
    Tests.cells (step { Tests.at 0x0200#16 5#32 [0x20#8, 0x34#8, 0x12#8] with sp := 0xFFFF#16 })
      [0xFFFF#16, 0x0000#16, 0x0001#16] = some [0x02#8, 0x02#8, 0x00#8] := by decide

/-- V35: the store overwrites the JSR's own bytes after they were fetched. -/
theorem test_jsr_over_its_own_bytes :
    Tests.view (step (Tests.at 0x0100#16 5#32 [0x20#8, 0x00#8, 0x03#8]))
      = some (0x00#8, 0x00#8, 0x0300#16, 0x0101#16, 0#32) ∧
    Tests.cells (step (Tests.at 0x0100#16 5#32 [0x20#8, 0x00#8, 0x03#8])) [0x0100#16, 0x0101#16, 0x0102#16]
      = some [0x02#8, 0x01#8, 0x03#8] := by decide

/-- V31 and V36: `ret` at the wrap of `pc`, and the other value of the parameter changes `sp` only. -/
theorem test_jsr_return_address_wrap_and_parameter :
    Tests.cells (step (Tests.at 0xFFFD#16 5#32 [0x20#8, 0x34#8, 0x12#8])) [0x0100#16, 0x0101#16]
      = some [0xFF#8, 0xFF#8] ∧
    (bodyWith ⟨.two⟩ (.start (Tests.at 0x0200#16 5#32 [0x20#8, 0x34#8, 0x12#8]))).st.sp = 0x0102#16 := by decide

/-! ## Unsupported bytes -/

/-- V60: one event, everything else kept. -/
theorem test_unsupported_is_skipped_and_recorded :
    Tests.nextOf (step (Tests.at 0x0200#16 1#32 [0xEA#8]))
      = some { Tests.at 0x0200#16 0#32 [0xEA#8] with pc := 0x0201#16, diag := [0xEA#8] } := by decide

/-- V43: the wrap of `pc`. -/
theorem test_unsupported_wraps_pc :
    Tests.view (step (Tests.at 0xFFFF#16 1#32 [0xEA#8])) = some (0x00#8, 0x00#8, 0x0000#16, 0x0100#16, 0#32) := by decide

/-! ## The loop, the host, memory -/

/-- V50 without its memory: `Reset` keeps `diag` and clears the rest. -/
theorem test_reset_keeps_diag :
    hostReset { State.reset with pc := 0x1234#16, sp := 0xABCD#16, regs := ⟨0x12#8, 0x34#8, 0x56#8⟩, diag := [0x02#8] }
      = { State.reset with diag := [0x02#8] } := by decide

/-- The source's scenario S7 on its budget of 7 (P1), the only run here: 5 cycles and 2. -/
theorem test_scenario_s7 :
    Tests.view (.next (execute 7#32 ((Tests.at 0xFFFC#16 0#32 [0x20#8, 0x42#8, 0x42#8]).withBytesAt 0x4242#16 [0xA9#8, 0x84#8])))
      = some (0x84#8, 0x80#8, 0x4244#16, 0x0101#16, 0#32) := by decide

/-- R33's example, through the canonical memory: 0xFE at 0x0100, 0xFF at 0x0101. -/
theorem test_write16_little_endian :
    (write16 0xFFFE#16 0x0100#16 (.start State.reset)).st.mem = [(0x0100, 0xFE#8), (0x0101, 0xFF#8)] := by decide

/-- Writing what an unlisted address reads as removes the entry. -/
theorem test_memory_write_keeps_form :
    Memory.write [(1, 0x05#8), (7, 0x06#8)] 0x0001#16 0x00#8 = [(7, 0x06#8)] ∧
    Memory.write [(1, 0x05#8), (7, 0x06#8)] 0x0003#16 0x09#8 = [(1, 0x05#8), (3, 0x09#8), (7, 0x06#8)] ∧
    Memory.wf [(7, 0x06#8), (1, 0x05#8)] = false ∧ Memory.wf [(1, 0x00#8)] = false ∧
    Memory.wf [(65536, 0x01#8)] = false := by decide

/-! Each row of the opcode table, placed after reset, is fetched and run by the next step. -/

theorem test_with_fetch_word_runs_jsr_abs :
    Tests.view (step (State.reset.withFetchWord 24 0x424220)) = some (0x00#8, 0x00#8, 0x4242#16, 0x0101#16, 0#32) := by
  decide

theorem test_with_fetch_word_runs_lda_imm :
    Tests.view (step (State.reset.withFetchWord 16 0x84A9)) = some (0x84#8, 0x80#8, 0xFFFE#16, 0x0100#16, 0#32) := by
  decide

theorem test_with_fetch_word_runs_zero_page_loads : ∀ w ∈ [0xA5, 0xB5],
    Tests.view (step (State.reset.withFetchWord 8 w)) = some (0x00#8, 0x02#8, 0xFFFE#16, 0x0100#16, 0#32) := by
  decide

theorem test_with_fetch_word_runs_unsupported :
    (Tests.nextOf (step (State.reset.withFetchWord 8 0xEA))).map (fun s => s.diag) = some [0xEA#8] := by decide

/-! ## Witnesses: states and operands that meet the hypotheses of the statements -/

/-- `JSR $4242` at the reset address on a budget of 7; `LDA #$84` stands at the target. -/
def Tests.call : State :=
  (Tests.at 0xFFFC#16 7#32 [0x20#8, 0x42#8, 0x42#8]).withBytesAt 0x4242#16 [0xA9#8, 0x84#8]

/-- The state after it (S7, conflict C1). -/
def Tests.called : State :=
  { Tests.call with
    pc := 0x4242#16
    sp := 0x0101#16
    cyc := 2#32
    mem := (Tests.call.mem.write 0x0100#16 0xFE#8).write 0x0101#16 0xFF#8 }

theorem witness_step_call : step Tests.call = .next Tests.called := Tests.eq_next (by decide)

theorem witness_DecodeOfEncodeIsTheInstruction : (Instr.jsrAbs 0x1234#16).wf = true ∧ (Instr.unsupported 0xEA#8).wf = true := by
  decide

theorem witness_EncodeOfDecodeIsTheBytes : decode [0x20#8, 0x34#8, 0x12#8, 0x77#8] = .ok (.jsrAbs 0x1234#16, [0x77#8]) := by
  decide

theorem witness_StepRunsTheDecodedInstruction :
    Tests.call.cyc ≠ 0#32 ∧ decode (Tests.call.bytesAt Tests.call.pc 3) = .ok (.jsrAbs 0x4242#16, []) := by decide

theorem witness_StepWithSpentBudgetKeepsState : State.reset.cyc = 0#32 := by decide

/-- The two clauses, at the values where they meet. -/
theorem witness_DebitSaturatesAtZero :
    (1#32 ≤ (Tests.at 0#16 1#32 []).cyc) ∧ ((Tests.at 0#16 0#32 []).cyc < 1#32) := by decide

/-- The three clauses, at the ends of their ranges. -/
theorem witness_SetZNAssignsZeroAndNegative :
    (0#8 = 0#8) ∧ (1#8 ≤ 1#8 ∧ 1#8 ≤ 0x7F#8) ∧ (1#8 ≤ 0x7F#8 ∧ 0x7F#8 ≤ 0x7F#8) ∧ 0x80#8 ≤ 0x80#8 ∧ 0x80#8 ≤ 0xFF#8 := by
  decide

theorem witness_ExecLdaZpResult : Tests.call.mem.read ((0x42#8 : Byte).setWidth 16) = 0x00#8 := by decide

theorem witness_ExecLdaZpXResult :
    Tests.call.mem.read (((0x42#8 : Byte) + Tests.call.regs.x).setWidth 16) = 0x00#8 := by decide

theorem witness_StepLdaImmediate :
    Tests.called.cyc ≠ 0#32 ∧ Tests.called.mem.read Tests.called.pc = 0xA9#8 ∧
    Tests.called.mem.read (Tests.called.pc + 1#16) = 0x84#8 := by decide

/-- `A5 10` in the zero page at 0x0010. -/
def Tests.zp : State := Tests.at 0x0010#16 1#32 [0xA5#8, 0x10#8]

theorem witness_StepLdaZeroPage :
    Tests.zp.cyc ≠ 0#32 ∧ Tests.zp.mem.read Tests.zp.pc = 0xA5#8 ∧ Tests.zp.mem.read (Tests.zp.pc + 1#16) = 0x10#8 ∧
    Tests.zp.mem.read ((0x10#8 : Byte).setWidth 16) = 0xA5#8 := by decide

/-- `B5 F5` at 0x0204 with X = 0x20 and 0x80 at 0x0015. -/
def Tests.zpx : State :=
  hostWrite 0x0015#16 0x80#8 ((Tests.at 0x0204#16 4#32 [0xB5#8, 0xF5#8]).setReg .indexX 0x20#8)

theorem witness_StepLdaZeroPageX :
    Tests.zpx.cyc ≠ 0#32 ∧ Tests.zpx.mem.read Tests.zpx.pc = 0xB5#8 ∧
    Tests.zpx.mem.read (Tests.zpx.pc + 1#16) = 0xF5#8 ∧
    Tests.zpx.mem.read ((0xF5#8 + Tests.zpx.regs.x).setWidth 16) = 0x80#8 := by decide

theorem witness_StepJsrAbsolute :
    Tests.call.cyc ≠ 0#32 ∧ Tests.call.mem.read Tests.call.pc = 0x20#8 ∧
    Tests.call.mem.read (Tests.call.pc + 1#16) = 0x42#8 ∧ Tests.call.mem.read (Tests.call.pc + 2#16) = 0x42#8 := by decide

/-- An unsupported byte on the last cycle. -/
def Tests.skip : State := Tests.at 0x0300#16 1#32 [0xEA#8]

/-- The state after it. -/
def Tests.skipped : State := { Tests.skip with pc := 0x0301#16, cyc := 0#32, diag := [0xEA#8] }

theorem witness_StepUnsupportedByte :
    Tests.skip.cyc ≠ 0#32 ∧ Tests.skip.mem.read Tests.skip.pc = 0xEA#8 ∧ 0xEA#8 ≠ 0x20#8 ∧ 0xEA#8 ≠ 0xA5#8 ∧
    0xEA#8 ≠ 0xA9#8 ∧ 0xEA#8 ≠ 0xB5#8 := by decide

theorem witness_step_skip : step Tests.skip = .next Tests.skipped := Tests.eq_next (by decide)

/-- Each of the three loads answers a next state, and one that differs in A and in the flags. -/
theorem witness_LoadsChangeOnlyAZNAndCounter :
    (∃ t, exec (.ldaImm 0x84#8) State.reset = .next t ∧ t.p ≠ State.reset.p ∧ t.regs.a ≠ State.reset.regs.a) ∧
    (∃ t, exec (.ldaZp 0x10#8) Tests.zp = .next t ∧ t.regs.a ≠ Tests.zp.regs.a) ∧
    ∃ t, exec (.ldaZpX 0xF5#8) Tests.zpx = .next t ∧ t.regs.a ≠ Tests.zpx.regs.a :=
  ⟨⟨_, rfl, by decide, by decide⟩, ⟨_, rfl, by decide⟩, ⟨_, rfl, by decide⟩⟩

/-- An address outside the two stored bytes exists for JSR. -/
theorem witness_JsrKeepsRegistersFlagsAndOtherCells :
    (∃ t, exec (.jsrAbs 0x1234#16) State.reset = .next t) ∧ (0x0102#16 ≠ State.reset.sp ∧ 0x0102#16 ≠ State.reset.sp + 1#16) :=
  ⟨⟨_, rfl⟩, by decide⟩

theorem witness_UnsupportedKeepsAllButDiag : ∃ t, exec (.unsupported 0xEA#8) State.reset = .next t := ⟨_, rfl⟩

/-- For the clauses on `exec` see `witness_LoadsChangeOnlyAZNAndCounter`. -/
theorem witness_Reachable : Reachable State.reset := .constructed

/-- A step that is no load (and none of `LDA zp,X`), and one of each load. -/
theorem witness_RegisterUseDiscipline :
    (step Tests.call = .next Tests.called ∧ ¬ Tests.call.RunsLoad ∧ Tests.call.mem.read Tests.call.pc ≠ 0xB5#8) ∧
    ∀ s ∈ [Tests.called, Tests.zp, Tests.zpx], s.RunsLoad ∧ ∃ t, step s = .next t :=
  ⟨⟨witness_step_call, by unfold State.RunsLoad; decide, by decide⟩, by
    simp only [List.forall_mem_cons, List.not_mem_nil, false_implies, implies_true, and_true]
    exact ⟨⟨by unfold State.RunsLoad; decide, _, rfl⟩, ⟨by unfold State.RunsLoad; decide, _, rfl⟩,
      ⟨by unfold State.RunsLoad; decide, _, rfl⟩⟩⟩

/-- Steps of both clauses: a call, an idle step, and a load. -/
theorem witness_FlagsAreNeverRead :
    (step Tests.call = .next Tests.called ∧ ¬ Tests.call.RunsLoad) ∧
    (step State.reset = .next State.reset ∧ ¬ State.reset.RunsLoad) ∧
    Tests.called.RunsLoad ∧ ∃ t, step Tests.called = .next t :=
  ⟨⟨witness_step_call, by unfold State.RunsLoad; decide⟩, ⟨rfl, by unfold State.RunsLoad; decide⟩,
    by unfold State.RunsLoad; decide, _, rfl⟩

theorem witness_OnlyJsrStoresJumpsAndUsesSp :
    Tests.skip.cyc ≠ 0#32 ∧ Tests.skip.mem.read Tests.skip.pc ≠ 0x20#8 ∧ step Tests.skip = .next Tests.skipped :=
  ⟨by decide, by decide, witness_step_skip⟩

/-- A cell that a step changes, and cells that host operations change. -/
theorem witness_MemoryChangesOnlyByHostWriteOrJsr :
    (step Tests.call = .next Tests.called ∧ Tests.called.mem.read 0x0101#16 ≠ Tests.call.mem.read 0x0101#16) ∧
    (∃ t, hostApply (.write 0x0005#16 0x09#8) State.reset = some t ∧ t.mem.read 0x0005#16 ≠ State.reset.mem.read 0x0005#16) ∧
    ∃ t, hostApply .construct Tests.skipped = some t ∧ t.mem.read 0x0300#16 ≠ Tests.skipped.mem.read 0x0300#16 :=
  ⟨⟨witness_step_call, by decide⟩, ⟨_, rfl, by decide⟩, ⟨_, rfl, by decide⟩⟩

/-- Both alternatives occur. -/
theorem witness_DiagnosticIsTheSoleEffect :
    (step Tests.skip = .next Tests.skipped ∧ Tests.skipped.diag ≠ Tests.skip.diag) ∧
    (step Tests.call = .next Tests.called ∧ Tests.called.diag = Tests.call.diag) :=
  ⟨⟨witness_step_skip, by decide⟩, ⟨witness_step_call, by decide⟩⟩

theorem witness_CounterFallsWithEveryStep : step Tests.call = .next Tests.called ∧ Tests.call.cyc ≠ 0#32 :=
  ⟨witness_step_call, by decide⟩

/-- A JSR to the cell it stores at, and one to the cell after it. -/
def Tests.callToStack (ll : Byte) : State := Tests.at 0x0200#16 5#32 [0x20#8, ll, 0x01#8]

theorem witness_StoreIsSeenByTheNextFetch : ∀ ll ∈ [0x00#8, 0x01#8],
    (Tests.callToStack ll).cyc ≠ 0#32 ∧ (Tests.callToStack ll).mem.read 0x0200#16 = 0x20#8 ∧
    (Tests.callToStack ll).mem.read 0x0201#16 = ll ∧ (Tests.callToStack ll).mem.read 0x0202#16 = 0x01#8 ∧
    (Tests.callToStack ll).pc = 0x0200#16 := by decide

theorem witness_StoreIsSeenByTheNextFetch_clauses :
    (0x01#8 ++ 0x00#8 : Word) = (Tests.callToStack 0x00#8).sp ∧
    (0x01#8 ++ 0x01#8 : Word) = (Tests.callToStack 0x01#8).sp + 1#16 := by decide

theorem witness_HostMovesOnlyBetweenExecutes : State.reset.cyc = 0#32 ∧ Tests.call.cyc ≠ 0#32 := by decide

/-- During an `Execute` the host can neither read a cell nor observe the CPU (R8, D13). -/
theorem test_host_cannot_read_during_execute :
    hostCall (.read 0x0200#16) Tests.call = none ∧ hostCall .observe Tests.call = none := by decide

/-- Between two, both answer and change nothing: pc 0x0301 after the skipped 0xEA at 0x0300 (R43, R7, R90). -/
theorem test_host_reads_between_executes :
    hostCall (.read 0x0300#16) Tests.skipped = some (.byte 0xEA#8, Tests.skipped) ∧
    hostCall .observe Tests.skipped
      = some (.view ⟨0x0301#16, 0x0100#16, 0#8, 0#8, 0#8, 0#8, [0xEA#8]⟩, Tests.skipped) := by decide

theorem witness_ObserveShowsAllCpuState :
    observe State.reset = observe (hostWrite 0x0005#16 0x09#8 State.reset) ∧
    State.reset ≠ hostWrite 0x0005#16 0x09#8 State.reset := by decide

theorem witness_StepKeepsMemoryCanonical :
    Tests.call.Inv ∧ step Tests.call = .next Tests.called := ⟨by decide, witness_step_call⟩

theorem witness_HostKeepsMemoryCanonical :
    Tests.skipped.Inv ∧ ∃ t, hostApply (.write 0x0005#16 0x09#8) Tests.skipped = some t := ⟨by decide, _, rfl⟩

theorem witness_EqualReadsGiveEqualMemories :
    Memory.wf [(5, 0x09#8)] = true ∧ Memory.wf (Memory.write [] 0x0005#16 0x09#8) = true ∧
    ∀ a, Memory.read [(5, 0x09#8)] a = Memory.read (Memory.write [] 0x0005#16 0x09#8) a :=
  ⟨by decide, by decide, fun _ => rfl⟩

theorem witness_StepKeepsBootInvariant :
    Tests.call.BootInv ∧ step Tests.call = .next Tests.called := ⟨by decide, witness_step_call⟩

/-- The clauses for `n ≠ 0` and `n = 0`. -/
theorem witness_ExecuteEndsWithinItsBounds : (7#32 ≠ 0#32) ∧ (0#32 = 0#32) := by decide

/-- A budget of 1 is rounded up to the 5 cycles of the JSR. -/
theorem witness_ExecuteRoundsUpToABoundary :
    (5#32).toNat = totalCycles (executedInstrs machineConfig 1#32 Tests.call) := by decide

theorem witness_ExecuteIsTheIteratedStep : 1 < (executedInstrs machineConfig 7#32 Tests.call).length := by decide

theorem witness_RunsOfBudgetManyStepsReachTheEnd : (7#32).toNat ≤ 7 ∧ (7#32).toNat ≤ 9 := by decide

theorem witness_RunsSplitAtBoundaries :
    totalCycles (executedInstrs machineConfig 5#32 Tests.call) = (5#32).toNat ∧ (5#32).toNat + (2#32).toNat < 2 ^ 32 := by
  decide

/-- Rows of calls of the greatest lengths the two clauses admit, and the last call of each. -/
theorem witness_StackAfterARowOfCalls (call : Word × Word) :
    ((List.replicate 65535 call).length ≤ 65535 ∧ (List.replicate 65535 call)[65534]? = some call) ∧
    ((List.replicate 32768 call).length ≤ 32768 ∧ (List.replicate 32768 call)[32767]? = some call) := by
  simp only [List.length_replicate, List.getElem?_replicate]
  exact ⟨⟨le_refl _, if_pos (by omega)⟩, le_refl _, if_pos (by omega)⟩

end Sys2Proof.Machine
end

section
/-! PROOFS. The scope of the model: when the host may move and what it sees (spec file 00_scope.md, rules R7 and R8). -/

namespace Sys2Proof.Machine

/-! ## The raw view of the status (R17) -/

section
variable (p : Status)

@[simp] theorem Status.raw_getElem_zero : p.raw[0] = p.c := by simp [Status.raw, flagAt]
@[simp] theorem Status.raw_getElem_one : p.raw[1] = p.z := by simp [Status.raw, flagAt]
@[simp] theorem Status.raw_getElem_two : p.raw[2] = p.i := by simp [Status.raw, flagAt]
@[simp] theorem Status.raw_getElem_three : p.raw[3] = p.d := by simp [Status.raw, flagAt]
@[simp] theorem Status.raw_getElem_six : p.raw[6] = p.v := by simp [Status.raw, flagAt]
@[simp] theorem Status.raw_getElem_seven : p.raw[7] = p.n := by simp [Status.raw, flagAt]

end

/-- The raw view loses no flag: each of the six is read back at its bit. -/
theorem Status.eq_of_raw_eq {p q : Status} (h : p.raw = q.raw) : p = q := by
  have hbit (k : Nat) : p.raw.getLsbD k = q.raw.getLsbD k := by rw [h]
  have hc : p.c = q.c := by simpa using hbit 0
  have hz : p.z = q.z := by simpa using hbit 1
  have hi : p.i = q.i := by simpa using hbit 2
  have hd : p.d = q.d := by simpa using hbit 3
  have hv : p.v = q.v := by simpa using hbit 6
  have hn : p.n = q.n := by simpa using hbit 7
  cases p
  cases q
  simp_all only

/-! ## The host's view and the host's moves -/

/-- The register file has no more than its three slots (R11). -/
theorem Regs.eq_of_slots {r u : Regs} (ha : r.a = u.a) (hx : r.x = u.x) (hy : r.y = u.y) : r = u := by
  cases r
  cases u
  simp_all only

/-- Two states look alike to `Observe` exactly when they agree on every field but memory and the counter (R7). -/
theorem observe_eq_observe_iff {s t : State} :
    observe s = observe t ↔ s.regs = t.regs ∧ s.pc = t.pc ∧ s.sp = t.sp ∧ s.p = t.p ∧ s.diag = t.diag := by
  constructor
  · intro h
    obtain ⟨hpc, hsp, ha, hx, hy, hraw, hdiag⟩ := Observation.mk.inj h
    have hregs : s.regs = t.regs := Regs.eq_of_slots ha hx hy
    exact ⟨hregs, hpc, hsp, Status.eq_of_raw_eq hraw, hdiag⟩
  · rintro ⟨hregs, hpc, hsp, hp, hdiag⟩
    simp [observe, hregs, hpc, hsp, hp, hdiag]

/-- Between two `Execute` calls every operation is possible, with its reply and its effect (R8). -/
theorem hostCall_of_cyc_eq_zero (op : HostOp) {s : State} (h : s.cyc = 0#32) :
    hostCall op s = some (op.reply s, op.effect s) :=
  (hostCall_eq_some_iff s).2 ⟨h, rfl, rfl⟩

/-- Settles O45: the host has the move exactly when the counter is 0, and the reply and effect of each of the six
operations are the ones named. -/
theorem hostMovesOnlyBetweenExecutes : Obligations.HostMovesOnlyBetweenExecutes := by
  intro op s
  refine ⟨hostCall_eq_none_iff s, fun hcyc => ?_, rfl⟩
  rw [hostCall_of_cyc_eq_zero op hcyc]
  cases op <;> rfl

/-- Settles O46: the view determines every field but memory and the counter, the flags through the raw byte. -/
theorem observeShowsAllCpuState : Obligations.ObserveShowsAllCpuState := by
  intro s t h
  obtain ⟨hregs, hpc, hsp, hp, hdiag⟩ := observe_eq_observe_iff.1 h
  simp only [hregs, hpc, hsp, hp, hdiag]

end Sys2Proof.Machine
end

section
/-! PROOFS. The state: who writes and reads the registers and the flags, what every step keeps, the counter, the
diagnostic events and the stack (spec file 10_state.md). -/

namespace Sys2Proof

/-! ## The loads among the instructions -/

/-- The three instructions that write the accumulator (R12, R71 to R73). -/
abbrev Instr.IsLoad (i : Instr) : Prop := ∃ d : Byte, i = .ldaImm d ∨ i = .ldaZp d ∨ i = .ldaZpX d

/-- Whether an instruction is a load shows in its opcode alone. -/
theorem Instr.isLoad_iff_opcode (i : Instr) :
    i.IsLoad ↔ i.opcode = .ldaImm ∨ i.opcode = .ldaZp ∨ i.opcode = .ldaZpX := by
  cases i <;> simp [Instr.IsLoad, Instr.opcode]

/-- What is no load is a call or an unsupported byte. -/
theorem Instr.eq_of_not_isLoad {i : Instr} (h : ¬ i.IsLoad) :
    (∃ target, i = .jsrAbs target) ∨ ∃ b, i = .unsupported b := by
  cases i with
  | jsrAbs target => exact .inl ⟨target, rfl⟩
  | unsupported b => exact .inr ⟨b, rfl⟩
  | ldaImm d => exact absurd ⟨d, .inl rfl⟩ h
  | ldaZp d => exact absurd ⟨d, .inr (.inl rfl)⟩ h
  | ldaZpX d => exact absurd ⟨d, .inr (.inr rfl)⟩ h

theorem opcodeOf_eq_ldaImm_iff (b : Byte) : opcodeOf b = .ldaImm ↔ b = 0xA9#8 :=
  ⟨fun h => by simpa using byte_of_opcodeOf h, fun h => h ▸ opcodeOf_ldaImm⟩

theorem opcodeOf_eq_ldaZp_iff (b : Byte) : opcodeOf b = .ldaZp ↔ b = 0xA5#8 :=
  ⟨fun h => by simpa using byte_of_opcodeOf h, fun h => h ▸ opcodeOf_ldaZp⟩

theorem opcodeOf_eq_ldaZpX_iff (b : Byte) : opcodeOf b = .ldaZpX ↔ b = 0xB5#8 :=
  ⟨fun h => by simpa using byte_of_opcodeOf h, fun h => h ▸ opcodeOf_ldaZpX⟩

/-- Every instruction costs at least one cycle and at most five (R66). -/
theorem Instr.cycles_bounds (i : Instr) : 1 ≤ i.cycles ∧ i.cycles ≤ 5 := by
  cases i <;> simp [Instr.cycles]

end Sys2Proof

namespace Sys2Proof.Machine

/-! ## One running step, as a fetched instruction and its meaning -/

/-- The instruction that stands at `pc`. -/
def State.nextInstr (s : State) : Instr := (fetchInstr (.start s)).1

/-- The state in which its meaning starts: its bytes fetched. -/
def State.afterFetch (s : State) : State := s.fetched s.nextInstr.length

theorem State.nextInstr_opcode (s : State) : s.nextInstr.opcode = opcodeOf (s.mem.read s.pc) :=
  fetchInstr_opcode (.start s)

/-- The byte of an unsupported instruction is the one at `pc` (R53). -/
theorem State.byte_of_nextInstr_unsupported {s : State} {b : Byte} (h : s.nextInstr = .unsupported b) :
    b = s.mem.read s.pc := by
  rw [State.nextInstr, fetchInstr_fst] at h
  split at h <;> simp_all

/-- The step runs a load exactly when a cycle is left and a load stands at `pc`. -/
theorem State.runsLoad_iff (s : State) : s.RunsLoad ↔ s.cyc ≠ 0#32 ∧ s.nextInstr.IsLoad := by
  rw [State.RunsLoad, Instr.isLoad_iff_opcode, State.nextInstr_opcode, opcodeOf_eq_ldaImm_iff, opcodeOf_eq_ldaZp_iff,
    opcodeOf_eq_ldaZpX_iff]

/-- One pass of the loop: the meaning of the next instruction, run where its bytes have been fetched. -/
theorem bodyWith_eq_perform (c : Config) (s : State) :
    (bodyWith c (.start s)).st = (perform c s.nextInstr (.start s.afterFetch)).st :=
  bodyWith_start_st c s

theorem step_eq_perform {s : State} (h : s.cyc ≠ 0#32) :
    step s = .next (perform machineConfig s.nextInstr (.start s.afterFetch)).st := by
  rw [step_running h, bodyWith_eq_perform]

/-- `exec` answers the state its operation leaves, and no other. -/
theorem exec_eq_next_iff {i : Instr} {s t : State} :
    exec i s = .next t ↔ (perform machineConfig i (.start s)).st = t := by
  rw [exec_eq_perform, Host.Outcome.next.injEq]

/-- What every pass of the loop keeps, every step keeps. -/
theorem step_keeps {P : State → Prop} (hbody : ∀ s, P s → P (bodyWith machineConfig (.start s)).st) {s t : State}
    (hs : P s) (h : step s = .next t) : P t := by
  obtain ⟨-, rfl⟩ | ⟨-, rfl⟩ := step_cases h
  · exact hs
  · exact hbody s hs

/-- What every pass of the loop keeps, the whole loop keeps. -/
theorem loopWith_keeps {c : Config} {P : State → Prop} (hbody : ∀ s, P s → P (bodyWith c (.start s)).st) (n : Nat)
    (t : Traced) (ht : P t.st) : P (loopWith c n t).st := by
  induction n generalizing t with
  | zero => exact ht
  | succ n ih =>
    cases hidle : t.st.idle with
    | true => rwa [loopWith_idle c _ hidle]
    | false =>
      rw [loopWith_running c n hidle]
      exact ih _ (bodyWith_st c t ▸ hbody _ ht)

/-- What holds at construction, and every host operation and every pass of the loop keeps, holds of every state reached
by the interface. -/
theorem Reachable.keeps {P : State → Prop} (hreset : P State.reset) (hhost : ∀ (op : HostOp) s, P s → P (op.effect s))
    (hbody : ∀ s, P s → P (bodyWith machineConfig (.start s)).st) {s : State} (h : Reachable s) : P s := by
  induction h with
  | constructed => exact hreset
  | host op _ happly ih =>
    obtain ⟨-, rfl⟩ := (hostApply_eq_some_iff _).1 happly
    exact hhost op _ ih
  | stepped _ hstep ih => exact step_keeps hbody ih hstep

/-! ## What a load writes (R70 to R73) -/

@[simp] theorem debited_of_zero (c : Cycles) : debited 0#32 c = c := by
  apply BitVec.eq_of_toNat_eq
  simp [toNat_debited]

/-- Every load debits some cycles and loads the accumulator. -/
theorem perform_load {i : Instr} (h : i.IsLoad) (c : Config) (s : State) :
    ∃ k v, (perform c i (.start s)).st = (s.debit k).loadAccumulator v := by
  obtain ⟨d, rfl | rfl | rfl⟩ := h
  · have hdebit : s.debit 0#32 = s := by simp [State.debit, State.setCyc]
    exact ⟨0#32, d, by rw [hdebit]; rfl⟩
  · exact ⟨1#32, _, rfl⟩
  · have hdebit : (s.debit 1#32).debit 1#32 = s.debit 2#32 := by
      simp [State.debit, State.setCyc, debited_debited]
    exact ⟨2#32, _, by rw [← hdebit]; rfl⟩

/-- An instruction that is no load keeps the register file and the flags. -/
theorem perform_keeps_file {i : Instr} (h : ¬ i.IsLoad) (c : Config) (s : State) :
    (perform c i (.start s)).st.regs = s.regs ∧ (perform c i (.start s)).st.p = s.p := by
  obtain ⟨target, rfl⟩ | ⟨b, rfl⟩ := Instr.eq_of_not_isLoad h
  · exact ⟨rfl, rfl⟩
  · exact ⟨rfl, rfl⟩

/-- The flags after any instruction: as before, or Z and N assigned from a byte (R19, R70). -/
theorem perform_flags (c : Config) (i : Instr) (s : State) :
    (perform c i (.start s)).st.p = s.p ∨ ∃ v, (perform c i (.start s)).st.p = s.p.withZN v := by
  by_cases h : i.IsLoad
  · obtain ⟨k, v, hload⟩ := perform_load h c s
    exact .inr ⟨v, by simp [hload]⟩
  · exact .inl (perform_keeps_file h c s).2

/-! ## The invariants of a machine that was never started elsewhere (R12, R19, R27) -/

/-- Z and N are not both assigned: a byte with bit 7 set is not 0 (R70). -/
theorem Status.withZN_not_both (v : Byte) (p : Status) : ((p.withZN v).z && (p.withZN v).n) = false := by
  by_cases hv : v = 0#8
  · simp [hv]
  · simp [hv]

theorem perform_bootInv {s : State} (c : Config) (i : Instr) (h : s.BootInv) : (perform c i (.start s)).st.BootInv := by
  obtain ⟨hx, hy, hc, hi, hd, hv, hzn⟩ := h
  obtain ⟨hx', hy', hc', hi', hd', hv'⟩ := perform_keeps c i (.start s)
  refine ⟨hx'.trans hx, hy'.trans hy, hc'.trans hc, hi'.trans hi, hd'.trans hd, hv'.trans hv, ?_⟩
  obtain hp | ⟨v, hp⟩ := perform_flags c i s
  · rw [hp, hzn]
  · rw [hp, Status.withZN_not_both]

/-- A fetch touches neither registers nor flags, so a whole pass keeps the invariant as its meaning does. -/
theorem bodyWith_bootInv (c : Config) (s : State) (h : s.BootInv) : (bodyWith c (.start s)).st.BootInv := by
  rw [bodyWith_eq_perform]
  exact perform_bootInv c _ h

theorem reset_bootInv : State.reset.BootInv := by decide

theorem hostOp_bootInv (op : HostOp) (s : State) (h : s.BootInv) : (op.effect s).BootInv := by
  cases op with
  | construct => exact reset_bootInv
  | reset => exact reset_bootInv
  | read a => exact h
  | write a v => exact h
  | observe => exact h
  | execute budget => exact h

theorem Reachable.bootInv {s : State} (h : Reachable s) : s.BootInv :=
  h.keeps reset_bootInv hostOp_bootInv (bodyWith_bootInv machineConfig)

/-- Under the invariant the raw view has three values: neither flag, Z alone, N alone (R27 (d)). -/
theorem raw_of_bootInv {s : State} (h : s.BootInv) : s.p.raw = 0x00#8 ∨ s.p.raw = 0x02#8 ∨ s.p.raw = 0x80#8 := by
  obtain ⟨-, -, hc, hi, hd, hv, hzn⟩ := h
  cases hz : s.p.z with
  | false => cases hn : s.p.n <;> simp [Status.raw, flagAt, hc, hz, hi, hd, hv, hn]
  | true =>
    have hn : s.p.n = false := by simpa [hz] using hzn
    simp [Status.raw, flagAt, hc, hz, hi, hd, hv, hn]

/-- Settles O47: both invariants are decided at the reset state. -/
theorem resetMeetsTheInvariants : Obligations.ResetMeetsTheInvariants :=
  ⟨Memory.wf_nil, reset_bootInv⟩

/-- Settles O51: X, Y, C, I, D, V are written by no instruction, and Z and N are kept or assigned from one byte. -/
theorem stepKeepsBootInvariant : Obligations.StepKeepsBootInvariant :=
  fun _ _ hs hstep => step_keeps (bodyWith_bootInv machineConfig) hs hstep

/-- Settles O52: every reachable state meets the boot invariant, which leaves three raw values. -/
theorem reachableStatusValues : Obligations.ReachableStatusValues := by
  intro s h
  obtain ⟨hx, hy, -⟩ := h.bootInv
  exact ⟨hx, hy, raw_of_bootInv h.bootInv⟩

/-! ## Who writes the flags (R19) -/

/-- Agreement on the four flags that no instruction writes. -/
abbrev Status.SameCIDV (p q : Status) : Prop := p.c = q.c ∧ p.i = q.i ∧ p.d = q.d ∧ p.v = q.v

theorem perform_sameCIDV (c : Config) (i : Instr) (s : State) : (perform c i (.start s)).st.p.SameCIDV s.p :=
  (perform_keeps c i (.start s)).2.2

theorem bodyWith_sameCIDV (c : Config) (q : Status) (s : State) (h : s.p.SameCIDV q) :
    (bodyWith c (.start s)).st.p.SameCIDV q := by
  obtain ⟨hc, hi, hd, hv⟩ := h
  obtain ⟨hc', hi', hd', hv'⟩ := perform_sameCIDV c s.nextInstr s.afterFetch
  rw [bodyWith_eq_perform]
  exact ⟨hc'.trans hc, hi'.trans hi, hd'.trans hd, hv'.trans hv⟩

/-- Settles O34: each meaning keeps C, I, D, V, the loop by induction on its passes, and the reachable states by the
boot invariant. -/
theorem flagWriteDiscipline : Obligations.FlagWriteDiscipline := by
  refine ⟨fun i s t h => ?_, fun c budget s => ?_, hostReset_p, fun s h => ?_⟩
  · obtain rfl := exec_eq_next_iff.1 h
    refine ⟨perform_sameCIDV machineConfig i s, fun hp => ?_⟩
    by_contra hload
    exact hp (perform_keeps_file hload machineConfig s).2
  · exact loopWith_keeps (bodyWith_sameCIDV c s.p) budget.toNat _ ⟨rfl, rfl, rfl, rfl⟩
  · obtain ⟨-, -, hc, hi, hd, hv, -⟩ := h.bootInv
    exact ⟨hc, hi, hd, hv⟩

/-- Settles O31: a load is a debit and a write of A, Z and N. -/
theorem loadsChangeOnlyAZNAndCounter : Obligations.LoadsChangeOnlyAZNAndCounter := by
  intro i s t hload h
  obtain ⟨k, v, hst⟩ := perform_load hload machineConfig s
  obtain rfl := hst.symm.trans (exec_eq_next_iff.1 h)
  simp

/-! ## Who reads the registers and the flags (R12, R20) -/

/-- A change of the state that a fetch neither sees nor touches. -/
structure FetchBlind (f : State → State) : Prop where
  pc : ∀ s, (f s).pc = s.pc
  cyc : ∀ s, (f s).cyc = s.cyc
  mem : ∀ s, (f s).mem = s.mem
  fetched : ∀ n s, (f s).fetched n = f (s.fetched n)

theorem fetchBlind_setReg (tag : RegTag) (v : Byte) : FetchBlind (State.setReg tag v) where
  pc s := State.setReg_pc s tag v
  cyc s := State.setReg_cyc s tag v
  mem s := State.setReg_mem s tag v
  fetched _ _ := by cases tag <;> rfl

theorem fetchBlind_setStatus (p : Status) : FetchBlind (State.setStatus p) where
  pc _ := rfl
  cyc _ := rfl
  mem _ := rfl
  fetched _ _ := rfl

theorem FetchBlind.nextInstr {f : State → State} (hf : FetchBlind f) (s : State) :
    (f s).nextInstr = s.nextInstr := by
  simp only [State.nextInstr, fetchInstr_fst, Traced.start_st, hf.pc, hf.mem]

theorem FetchBlind.afterFetch {f : State → State} (hf : FetchBlind f) (s : State) :
    (f s).afterFetch = f s.afterFetch := by
  simp only [State.afterFetch, hf.nextInstr, hf.fetched]

/-- Noninterference: what a meaning makes of a change the fetch does not see, the whole step makes of it. -/
theorem FetchBlind.step {f g : State → State} (hf : FetchBlind f) {s t : State} (h : step s = .next t)
    (hidle : s.cyc = 0#32 → f s = g s)
    (hrun : s.cyc ≠ 0#32 → ∀ r, (perform machineConfig s.nextInstr (.start (f r))).st
      = g (perform machineConfig s.nextInstr (.start r)).st) :
    step (f s) = .next (g t) := by
  by_cases hc : s.cyc = 0#32
  · obtain ⟨-, rfl⟩ := (step_cases h).resolve_right fun hr => hr.1 hc
    rw [step_idle ((hf.cyc t).trans hc), hidle hc]
  · obtain rfl := Host.Outcome.next.inj ((step_eq_perform hc).symm.trans h)
    rw [step_eq_perform (s := f s) (by rwa [hf.cyc]), hf.nextInstr, hf.afterFetch, hrun hc]

/-- A load overwrites the accumulator, whatever it was. -/
theorem perform_load_setReg_accumulator {i : Instr} (h : i.IsLoad) (c : Config) (v : Byte) (s : State) :
    (perform c i (.start (s.setReg .accumulator v))).st = (perform c i (.start s)).st := by
  obtain ⟨d, rfl | rfl | rfl⟩ := h <;> rfl

/-- No other instruction looks at a register. -/
theorem perform_setReg {i : Instr} (h : ¬ i.IsLoad) (c : Config) (tag : RegTag) (v : Byte) (s : State) :
    (perform c i (.start (s.setReg tag v))).st = (perform c i (.start s)).st.setReg tag v := by
  obtain ⟨target, rfl⟩ | ⟨b, rfl⟩ := Instr.eq_of_not_isLoad h
  · cases tag <;> rfl
  · cases tag <;> rfl

/-- No instruction looks at Y. -/
theorem perform_setReg_indexY (c : Config) (i : Instr) (v : Byte) (s : State) :
    (perform c i (.start (s.setReg .indexY v))).st = (perform c i (.start s)).st.setReg .indexY v := by
  cases i <;> rfl

/-- `LDA zp,X` alone looks at X. -/
theorem perform_setReg_indexX {i : Instr} (h : i.opcode ≠ .ldaZpX) (c : Config) (v : Byte) (s : State) :
    (perform c i (.start (s.setReg .indexX v))).st = (perform c i (.start s)).st.setReg .indexX v := by
  cases i with
  | ldaZpX d => exact absurd rfl h
  | jsrAbs target => rfl
  | ldaZp d => rfl
  | ldaImm d => rfl
  | unsupported b => rfl

/-- Replace the four flags that no load writes. -/
def State.setFlagsButZN (p : Status) (s : State) : State := s.setStatus { p with z := s.p.z, n := s.p.n }

/-- A load leaves the same Z and N over any other flags. -/
theorem perform_load_setStatus {i : Instr} (h : i.IsLoad) (c : Config) (p : Status) (s : State) :
    (perform c i (.start (s.setStatus p))).st = (perform c i (.start s)).st.setFlagsButZN p := by
  obtain ⟨d, rfl | rfl | rfl⟩ := h <;> rfl

/-- No other instruction looks at a flag. -/
theorem perform_setStatus {i : Instr} (h : ¬ i.IsLoad) (c : Config) (p : Status) (s : State) :
    (perform c i (.start (s.setStatus p))).st = (perform c i (.start s)).st.setStatus p := by
  obtain ⟨target, rfl⟩ | ⟨b, rfl⟩ := Instr.eq_of_not_isLoad h
  · rfl
  · rfl

/-- A running step that is no load runs an instruction that is none. -/
theorem State.not_isLoad_of_not_runsLoad {s : State} (hc : s.cyc ≠ 0#32) (h : ¬ s.RunsLoad) : ¬ s.nextInstr.IsLoad :=
  fun hi => h (s.runsLoad_iff.2 ⟨hc, hi⟩)

/-- Settles O35: a load overwrites A and nothing else looks at it, no instruction looks at Y, and X is looked at by
`LDA zp,X` alone; X and Y of reachable states are in the boot invariant. -/
theorem registerUseDiscipline : Obligations.RegisterUseDiscipline := by
  refine ⟨fun i s t h => ?_, fun s t v h => ⟨fun hload => ?_, fun hload => ?_, ?_, fun hbyte => ?_⟩, fun s h => ?_⟩
  · obtain rfl := exec_eq_next_iff.1 h
    obtain ⟨hx, hy, -⟩ := perform_keeps machineConfig i (.start s)
    refine ⟨hx, hy, fun ha => ?_⟩
    by_contra hload
    exact ha (congrArg Regs.a (perform_keeps_file hload machineConfig s).1)
  · obtain ⟨hc, hi⟩ := s.runsLoad_iff.1 hload
    exact (fetchBlind_setReg .accumulator v).step (g := id) h (fun h0 => absurd h0 hc)
      fun _ => perform_load_setReg_accumulator hi machineConfig v
  · exact (fetchBlind_setReg .accumulator v).step h (fun _ => rfl) fun hc =>
      perform_setReg (State.not_isLoad_of_not_runsLoad hc hload) machineConfig .accumulator v
  · exact (fetchBlind_setReg .indexY v).step h (fun _ => rfl) fun _ => perform_setReg_indexY machineConfig _ v
  · have hop : s.nextInstr.opcode ≠ .ldaZpX := by rwa [State.nextInstr_opcode, Ne, opcodeOf_eq_ldaZpX_iff]
    exact (fetchBlind_setReg .indexX v).step h (fun _ => rfl) fun _ => perform_setReg_indexX hop machineConfig v
  · obtain ⟨hx, hy, -⟩ := h.bootInv
    exact ⟨hx, hy⟩

/-- Settles O36: a fetch looks at no flag, a load writes the same Z and N over any flags, and nothing else looks at
them. -/
theorem flagsAreNeverRead : Obligations.FlagsAreNeverRead := by
  refine fun s t p h => ⟨fun hload => ?_, fun hload => ?_⟩
  · obtain ⟨hc, hi⟩ := s.runsLoad_iff.1 hload
    exact (fetchBlind_setStatus p).step (g := State.setFlagsButZN p) h (fun h0 => absurd h0 hc)
      fun _ => perform_load_setStatus hi machineConfig p
  · exact (fetchBlind_setStatus p).step h (fun _ => rfl) fun hc =>
      perform_setStatus (State.not_isLoad_of_not_runsLoad hc hload) machineConfig p

/-! ## The diagnostic events (R22) -/

/-- An event comes from an unsupported byte alone. -/
theorem perform_diag (c : Config) (i : Instr) (s : State) :
    (perform c i (.start s)).st.diag = s.diag ∨ ∃ b, i = .unsupported b := by
  cases i with
  | unsupported b => exact .inr ⟨b, rfl⟩
  | jsrAbs target => exact .inl rfl
  | ldaZp d => exact .inl rfl
  | ldaImm d => exact .inl rfl
  | ldaZpX d => exact .inl rfl

/-- Settles O39: only an unsupported byte writes `diag`, and its fetch and its one event are the whole step. -/
theorem diagnosticIsTheSoleEffect : Obligations.DiagnosticIsTheSoleEffect := by
  intro s t h
  obtain ⟨-, rfl⟩ | ⟨-, rfl⟩ := step_cases h
  · exact .inl rfl
  · rw [bodyWith_eq_perform]
    obtain hdiag | ⟨b, hb⟩ := perform_diag machineConfig s.nextInstr s.afterFetch
    · exact .inl hdiag
    · rw [State.afterFetch, hb, State.byte_of_nextInstr_unsupported hb]
      exact .inr rfl

/-! ## The counter (R66) -/

/-- The fetch and the meaning together debit the instruction's total. -/
theorem toNat_perform_cyc (c : Config) (i : Instr) (s : State) :
    (perform c i (.start (s.fetched i.length))).st.cyc.toNat = s.cyc.toNat - i.cycles := by
  cases i <;> simp [perform, toNat_debited, Instr.length, Instr.opcode, Opcode.length, Instr.cycles, Nat.sub_sub]

/-- Settles O40: every instruction debits at least one cycle and at most five. -/
theorem counterFallsWithEveryStep : Obligations.CounterFallsWithEveryStep := by
  intro s t h
  obtain ⟨hc, rfl⟩ | ⟨hc, rfl⟩ := step_cases h
  · exact ⟨BitVec.le_refl _, fun hne => absurd hc hne, by omega⟩
  · have hcyc : (bodyWith machineConfig (.start s)).st.cyc.toNat = s.cyc.toNat - s.nextInstr.cycles := by
      rw [bodyWith_eq_perform]
      exact toNat_perform_cyc machineConfig s.nextInstr s
    obtain ⟨hlow, hhigh⟩ := s.nextInstr.cycles_bounds
    have hpos : s.cyc.toNat ≠ 0 := fun h0 => hc (BitVec.eq_of_toNat_eq h0)
    rw [BitVec.le_def, BitVec.lt_def, hcyc]
    omega

/-! ## A row of calls (R82) -/

/-- One call of a row, from any state: `pc` is put behind the operand first. -/
def State.afterCall (c : Config) (ret target : Word) (s : State) : State :=
  (jsrAbs c target (.start (s.setPc (ret + 1#16)))).st

/-- A row of calls is its first call and then the rest. -/
theorem callAll_cons (c : Config) (ret target : Word) (calls : List (Word × Word)) (s : State) :
    callAll c ((ret, target) :: calls) s = callAll c calls (s.afterCall c ret target) := rfl

theorem callAll_append (c : Config) (calls calls' : List (Word × Word)) (s : State) :
    callAll c (calls ++ calls') s = callAll c calls' (callAll c calls s) := by
  induction calls generalizing s with
  | nil => rfl
  | cons call calls ih => exact ih _

theorem State.afterCall_sp (c : Config) (ret target : Word) (s : State) :
    (s.afterCall c ret target).sp = s.sp + SpAdvance.toWord c.jsrSpAdvance := rfl

/-- A call stores its return address at the stack pointer and the cell after it, and no other cell. -/
theorem State.read_afterCall (c : Config) (ret target : Word) (s : State) (a : Word) :
    (s.afterCall c ret target).mem.read a =
      if a = s.sp then lo8 ret else if a = s.sp + 1#16 then hi8 ret else s.mem.read a := by
  have hmem : (s.afterCall c ret target).mem = s.afterPush ret := by
    simp [State.afterCall, State.afterPush]
  rw [hmem, State.afterPush, Memory.read_write16_low_first]

/-- A row of calls, cut before its call number `i`. -/
theorem callAll_eq_of_getElem? (c : Config) {calls : List (Word × Word)} (s : State) {i : Nat} {call : Word × Word}
    (hi : calls[i]? = some call) :
    callAll c calls s = callAll c (call :: calls.drop (i + 1)) (callAll c (calls.take i) s) := by
  obtain ⟨hlt, rfl⟩ := List.getElem?_eq_some_iff.1 hi
  rw [← callAll_append, List.getElem_cons_drop, List.take_append_drop]

/-- What comes after call number `i` of a row is at least one call shorter. -/
theorem length_drop_bound {calls : List (Word × Word)} {i k : Nat} {call : Word × Word} (hi : calls[i]? = some call)
    (hlen : k * calls.length + 2 ≤ 65536 + k) : k * (calls.drop (i + 1)).length + 2 ≤ 65536 := by
  obtain ⟨hlt, -⟩ := List.getElem?_eq_some_iff.1 hi
  have hshort : (calls.drop (i + 1)).length + 1 ≤ calls.length := by rw [List.length_drop]; omega
  have := Nat.mul_le_mul_left k hshort
  rw [Nat.mul_succ] at this
  omega

section
variable {c : Config} {k : Nat} (hadv : SpAdvance.toWord c.jsrSpAdvance = BitVec.ofNat 16 k)
include hadv

/-- Each call moves the stack pointer by the machine's advance. -/
theorem callAll_sp (calls : List (Word × Word)) (s : State) :
    (callAll c calls s).sp = s.sp + BitVec.ofNat 16 (k * calls.length) := by
  induction calls generalizing s with
  | nil => simp [callAll]
  | cons call calls ih =>
    obtain ⟨ret, target⟩ := call
    rw [callAll_cons, ih, State.afterCall_sp, hadv, BitVec.add_assoc, ← BitVec.ofNat_add, List.length_cons,
      Nat.mul_succ, Nat.add_comm]

theorem callAll_sp_take {calls : List (Word × Word)} (s : State) {i : Nat} {call : Word × Word}
    (hi : calls[i]? = some call) : (callAll c (calls.take i) s).sp = s.sp + BitVec.ofNat 16 (k * i) := by
  obtain ⟨hlt, -⟩ := List.getElem?_eq_some_iff.1 hi
  rw [callAll_sp hadv, List.length_take_of_le hlt.le]

/-- A row of calls keeps the cells it does not reach: its last store lies one cell before the advance of two. -/
theorem callAll_read_of_beyond (hk : k ≤ 2) (calls : List (Word × Word)) (s : State) (a : Word)
    (ha : k * calls.length + 2 ≤ (a - s.sp).toNat + k) : (callAll c calls s).mem.read a = s.mem.read a := by
  induction calls generalizing s with
  | nil => rfl
  | cons call calls ih =>
    obtain ⟨ret, target⟩ := call
    rw [List.length_cons, Nat.mul_succ] at ha
    have hrest : (a - (s.sp + BitVec.ofNat 16 k)).toNat + k = (a - s.sp).toNat := by bv_omega
    have hsp : a ≠ s.sp := by bv_omega
    have hsp1 : a ≠ s.sp + 1#16 := by bv_omega
    rw [callAll_cons, ih _ (by rw [State.afterCall_sp, hadv]; omega), State.read_afterCall, if_neg hsp, if_neg hsp1]

variable (ret target : Word) (calls : List (Word × Word)) (s : State)

/-- The low byte of a return address outlives the calls after it, as long as they do not wrap around to it. -/
theorem read_low_of_callAll_cons (hk1 : 1 ≤ k) (hk2 : k ≤ 2) (hlen : k * calls.length + 2 ≤ 65536) :
    (callAll c ((ret, target) :: calls) s).mem.read s.sp = lo8 ret := by
  have hbehind : (s.sp - (s.sp + BitVec.ofNat 16 k)).toNat = 65536 - k := by bv_omega
  rw [callAll_cons, callAll_read_of_beyond hadv hk2 _ _ _ (by rw [State.afterCall_sp, hadv, hbehind]; omega),
    State.read_afterCall, if_pos rfl]

/-- The high byte of a return address outlives the calls after it when there are none, or when the advance is two. -/
theorem read_high_of_callAll_cons (hk : k = 2 ∨ calls = []) (hlen : k * calls.length + 2 ≤ 65536) :
    (callAll c ((ret, target) :: calls) s).mem.read (s.sp + 1#16) = hi8 ret := by
  have hstored : (s.afterCall c ret target).mem.read (s.sp + 1#16) = hi8 ret := by
    rw [State.read_afterCall, if_neg (Word.add_one_ne s.sp), if_pos rfl]
  rw [callAll_cons]
  obtain rfl | rfl := hk
  · have hbehind : (s.sp + 1#16 - (s.sp + BitVec.ofNat 16 2)).toNat = 65535 := by bv_omega
    rw [callAll_read_of_beyond hadv le_rfl _ _ _ (by rw [State.afterCall_sp, hadv, hbehind]; omega), hstored]
  · exact hstored

/-- The low byte of every return address of a row that is not too long stands `k` cells after the one before it. -/
theorem read_low_of_callAll (hk1 : 1 ≤ k) (hk2 : k ≤ 2) {i : Nat} (hi : calls[i]? = some (ret, target))
    (hlen : k * calls.length + 2 ≤ 65536 + k) :
    (callAll c calls s).mem.read (s.sp + BitVec.ofNat 16 (k * i)) = lo8 ret := by
  rw [callAll_eq_of_getElem? c s hi, ← callAll_sp_take hadv s hi]
  exact read_low_of_callAll_cons hadv ret target _ _ hk1 hk2 (length_drop_bound hi hlen)

/-- The high byte stands beside it, where no later call has stored over it. -/
theorem read_high_of_callAll {i : Nat} (hi : calls[i]? = some (ret, target)) (hk : k = 2 ∨ i + 1 = calls.length)
    (hlen : k * calls.length + 2 ≤ 65536 + k) :
    (callAll c calls s).mem.read (s.sp + BitVec.ofNat 16 (k * i + 1)) = hi8 ret := by
  rw [callAll_eq_of_getElem? c s hi, BitVec.ofNat_add, ← BitVec.add_assoc, ← callAll_sp_take hadv s hi]
  exact read_high_of_callAll_cons hadv ret target _ _
    (hk.imp_right fun hlast => List.drop_eq_nil_of_le hlast.ge) (length_drop_bound hi hlen)

end

/-- Settles O59: each call stores at the cells its place in the row gives it, and the calls after it do not reach the
bytes named. -/
theorem stackAfterARowOfCalls : Obligations.StackAfterARowOfCalls := by
  refine ⟨fun calls s hlen => ?_, fun calls s hlen => ?_⟩
  · have hadv : SpAdvance.toWord (Config.jsrSpAdvance ⟨.one⟩) = BitVec.ofNat 16 1 := rfl
    have hbound : 1 * calls.length + 2 ≤ 65536 + 1 := by omega
    refine ⟨by simpa using callAll_sp hadv calls s, fun i r target hi => ⟨?_, fun hlast => ?_⟩⟩
    · rw [lowByte, ← lo8_eq_setWidth]
      simpa using read_low_of_callAll hadv r target calls s le_rfl one_le_two hi hbound
    · rw [highByte, ← hi8_eq_setWidth]
      simpa using read_high_of_callAll hadv r target calls s hi (.inr hlast) hbound
  · have hadv : SpAdvance.toWord (Config.jsrSpAdvance ⟨.two⟩) = BitVec.ofNat 16 2 := rfl
    have hbound : 2 * calls.length + 2 ≤ 65536 + 2 := by omega
    refine ⟨callAll_sp hadv calls s, fun i r target hi => ⟨?_, ?_⟩⟩
    · rw [lowByte, ← lo8_eq_setWidth]
      exact read_low_of_callAll hadv r target calls s one_le_two le_rfl hi hbound
    · rw [highByte, ← hi8_eq_setWidth]
      exact read_high_of_callAll hadv r target calls s hi (.inl rfl) hbound

/-! ## The raw view of the status (R17, R18) -/

section
variable (p : Status)

@[simp] theorem Status.raw_getElem_four : p.raw[4] = false := by simp [Status.raw, flagAt]
@[simp] theorem Status.raw_getElem_five : p.raw[5] = false := by simp [Status.raw, flagAt]

/-- The mask keeps the raw view: it clears bits 4 and 5 alone, which read 0. -/
theorem Status.raw_and_namedMask : p.raw &&& Config.namedMask = p.raw := by
  apply BitVec.eq_of_getLsbD_eq
  intro k hk
  interval_cases k <;> simp [Config.namedMask]

end

/-- Settles O17: bit by bit. -/
theorem rawStatusBitPositions : Obligations.RawStatusBitPositions := by
  intro p
  simp

/-- Settles O18: the reserved bits lie outside the mask, and the mask keeps the raw view. -/
theorem reservedStatusBitsReadZero : Obligations.ReservedStatusBitsReadZero := by
  refine ⟨fun s => ⟨?_, s.p.raw_and_namedMask⟩, rfl, by decide, by decide⟩
  have hdisjoint : Config.namedMask &&& 0x30#8 = 0#8 := by decide
  rw [← s.p.raw_and_namedMask, BitVec.and_assoc, hdisjoint, BitVec.and_zero]

/-! ## The register file and the power-on values (R11, R25, R121) -/

/-- Settles O19: slot by slot. -/
theorem registerSlotsNeverAlias : Obligations.RegisterSlotsNeverAlias := by
  intro t u v s
  refine ⟨State.getReg_setReg s t u v, ?_⟩
  cases t <;> rfl

/-- What `Observe` shows after `Reset`: the power-on values, and the events as they were (R25, R120). -/
theorem observe_hostReset (s : State) : observe (hostReset s) = { observe construct with diag := s.diag } := rfl

/-- Settles O43: the new machine is read off its definition, and `Reset` leaves its values over any state. -/
theorem constructionAndResetValues : Obligations.ConstructionAndResetValues :=
  ⟨rfl, Memory.read_nil, rfl, fun s => ⟨observe_hostReset s, fun a => congrArg (Memory.read · a) (hostReset_mem s)⟩⟩

end Sys2Proof.Machine
end

section
/-! PROOFS. Memory: the primitives, the host's accesses, who stores, what the next fetch sees, and the accesses of an
`Execute` (spec file 20_memory.md). -/

namespace Sys2Proof

/-- A call is told by its opcode byte alone (R52). -/
theorem opcodeOf_eq_jsrAbs_iff (b : Byte) : opcodeOf b = .jsrAbs ↔ b = 0x20#8 :=
  ⟨fun h => by simpa using byte_of_opcodeOf h, fun h => h ▸ opcodeOf_jsrAbs⟩

end Sys2Proof

namespace Sys2Proof.Machine

/-! ## The accesses and the cost of one pass (R46, R66) -/

/-- A fetch makes one access per byte of the instruction. -/
theorem length_fetchInstr_trace (t : Traced) :
    (fetchInstr t).2.trace.length = t.trace.length + (fetchInstr t).1.length := by
  rw [fetchInstr_trace, List.length_append, Instr.length, fetchInstr_opcode]
  cases opcodeOf (t.st.mem.read t.st.pc) <;> rfl

/-- A meaning makes at most one access per cycle that the fetch of its bytes has not paid for. -/
theorem length_perform_trace_le (c : Config) (i : Instr) (t : Traced) :
    (perform c i t).trace.length + i.length ≤ t.trace.length + i.cycles := by
  cases i <;> simp [perform, Instr.length, Instr.opcode, Opcode.length, Instr.cycles]

/-- A whole pass makes at most one access per cycle. -/
theorem length_bodyWith_trace_le (c : Config) (t : Traced) :
    (bodyWith c t).trace.length ≤ t.trace.length + (fetchInstr t).1.cycles := by
  have hfetch := length_fetchInstr_trace t
  have hperform := length_perform_trace_le c (fetchInstr t).1 (fetchInstr t).2
  rw [bodyWith]
  omega

/-- A whole pass debits what its instruction costs. -/
theorem toNat_bodyWith_cyc (c : Config) (t : Traced) :
    (bodyWith c t).st.cyc.toNat = t.st.cyc.toNat - (fetchInstr t).1.cycles := by
  rw [bodyWith_st, bodyWith_eq_perform, fetchInstr_fst_start]
  exact toNat_perform_cyc c t.st.nextInstr t.st

/-! ## The accesses of the whole loop (R67) -/

theorem State.toNat_cyc_ne_zero_of_not_idle {s : State} (h : s.idle = false) : s.cyc.toNat ≠ 0 :=
  fun h0 => (State.idle_eq_false_iff s).1 h (BitVec.eq_of_toNat_eq h0)

/-- Pass by pass, the loop makes at most as many accesses as its instructions cost. -/
theorem length_loopWith_trace_le (c : Config) (n : Nat) (t : Traced) :
    (loopWith c n t).trace.length ≤ t.trace.length + totalCycles (loopInstrs c n t) := by
  induction n generalizing t with
  | zero => exact Nat.le_add_right _ _
  | succ n ih =>
    cases hidle : t.st.idle with
    | true =>
      rw [loopWith_idle c _ hidle]
      exact Nat.le_add_right _ _
    | false =>
      have hbody := length_bodyWith_trace_le c t
      have hrest := ih (bodyWith c t)
      rw [loopWith_running c n hidle, loopInstrs_running c n hidle, totalCycles_cons]
      omega

/-- The loop overspends its counter by at most four cycles: it is over once the counter is 0, and no pass costs more
than five. -/
theorem totalCycles_loopInstrs_le (c : Config) (n : Nat) (t : Traced) :
    totalCycles (loopInstrs c n t) ≤ t.st.cyc.toNat + 4 := by
  induction n generalizing t with
  | zero => exact Nat.zero_le _
  | succ n ih =>
    cases hidle : t.st.idle with
    | true =>
      rw [loopInstrs_idle c _ hidle]
      exact Nat.zero_le _
    | false =>
      have hcyc := toNat_bodyWith_cyc c t
      have hfive : (fetchInstr t).1.cycles ≤ 5 := (Instr.cycles_bounds _).2
      have hpos : t.st.cyc.toNat ≠ 0 := State.toNat_cyc_ne_zero_of_not_idle hidle
      rw [loopInstrs_running c n hidle, totalCycles_cons]
      cases hlast : (bodyWith c t).st.idle with
      | true =>
        have hnone : totalCycles (loopInstrs c n (bodyWith c t)) = 0 := by rw [loopInstrs_idle c n hlast]; rfl
        omega
      | false =>
        have hleft : (bodyWith c t).st.cyc.toNat ≠ 0 := State.toNat_cyc_ne_zero_of_not_idle hlast
        have hrest := ih (bodyWith c t)
        omega

theorem totalCycles_executedInstrs_le (c : Config) (n : Cycles) (s : State) :
    totalCycles (executedInstrs c n s) ≤ n.toNat + 4 :=
  totalCycles_loopInstrs_le c n.toNat (.start (s.setCyc n))

/-- Settles O54: each pass makes at most one access per cycle, and the passes overspend the budget by at most four
cycles; both by induction on the passes of the loop. -/
theorem executeAccessesAreBounded : Obligations.ExecuteAccessesAreBounded := by
  intro c n s
  have haccesses : (executeWith c n s).trace.length ≤ totalCycles (executedInstrs c n s) := by
    simpa [executeWith, executedInstrs] using length_loopWith_trace_le c n.toNat (.start (s.setCyc n))
  refine ⟨haccesses, haccesses.trans (totalCycles_executedInstrs_le c n s), ?_⟩
  rintro rfl
  rfl

/-! ## Who changes memory (R45) -/

/-- An instruction that is no call keeps memory. -/
theorem perform_mem (c : Config) (i : Instr) (s : State) :
    (perform c i (.start s)).st.mem = s.mem ∨ ∃ target, i = .jsrAbs target := by
  cases i with
  | jsrAbs target => exact .inr ⟨target, rfl⟩
  | ldaZp d => exact .inl rfl
  | ldaImm d => exact .inl rfl
  | ldaZpX d => exact .inl rfl
  | unsupported b => exact .inl rfl

/-- The two cells of a call's store, and every other cell as before (R33, R80). -/
theorem State.read_afterPush (s : State) (ret a : Word) :
    (s.afterPush ret).read a = if a = s.sp then lo8 ret else if a = s.sp + 1#16 then hi8 ret else s.mem.read a :=
  Memory.read_write16_low_first s.mem s.sp a (lo8 ret) (hi8 ret)

/-- A call keeps every cell but the two it stores to. -/
theorem read_jsrAbs_of_ne (c : Config) (target : Word) (t : Traced) {a : Word} (hsp : a ≠ t.st.sp)
    (hsp1 : a ≠ t.st.sp + 1#16) : (jsrAbs c target t).st.mem.read a = t.st.mem.read a := by
  rw [jsrAbs_mem, State.read_afterPush, if_neg hsp, if_neg hsp1]

/-- Where the next instruction is a call, its opcode byte stands at `pc`. -/
theorem State.byte_of_nextInstr_jsrAbs {s : State} {target : Word} (h : s.nextInstr = .jsrAbs target) :
    s.mem.read s.pc = 0x20#8 := by
  rw [← opcodeOf_eq_jsrAbs_iff, ← State.nextInstr_opcode, h]
  rfl

/-- A pass that changes a cell runs a call that stores to it. -/
theorem jsr_of_bodyWith_changes_cell {c : Config} {s : State} {a : Word}
    (h : (bodyWith c (.start s)).st.mem.read a ≠ s.mem.read a) :
    s.mem.read s.pc = 0x20#8 ∧ (a = s.sp ∨ a = s.sp + 1#16) := by
  rw [bodyWith_eq_perform] at h
  obtain hkept | ⟨target, hjsr⟩ := perform_mem c s.nextInstr s.afterFetch
  · exact absurd (congrArg (Memory.read · a) hkept) h
  · refine ⟨State.byte_of_nextInstr_jsrAbs hjsr, ?_⟩
    by_contra! hout
    obtain ⟨hsp, hsp1⟩ := hout
    rw [hjsr] at h
    exact h (read_jsrAbs_of_ne c target (.start s.afterFetch) hsp hsp1)

/-- A host operation that changes a cell is a `HostWrite` to it or makes a new memory. -/
theorem hostWrite_of_effect_changes_cell {op : HostOp} {s : State} {a : Word}
    (h : (op.effect s).mem.read a ≠ s.mem.read a) : op = .construct ∨ ∃ v, op = .write a v := by
  cases op with
  | construct => exact .inl rfl
  | write b v =>
    by_cases hb : a = b
    · exact .inr ⟨v, by rw [hb]⟩
    · exact absurd (Memory.read_write_ne s.mem v hb) h
  | reset => exact absurd rfl h
  | read b => exact absurd rfl h
  | observe => exact absurd rfl h
  | execute budget => exact absurd rfl h

/-- Settles O38: a fetch keeps memory, a call alone stores, and of the host's operations two make another memory. -/
theorem memoryChangesOnlyByHostWriteOrJsr : Obligations.MemoryChangesOnlyByHostWriteOrJsr := by
  refine ⟨Memory.read_nil, hostReset_mem, fun s t a hstep hne => ?_, fun op s t a happly hne => ?_⟩
  · obtain ⟨-, rfl⟩ | ⟨-, rfl⟩ := step_cases hstep
    · exact absurd rfl hne
    · exact jsr_of_bodyWith_changes_cell hne
  · obtain ⟨-, rfl⟩ := (hostApply_eq_some_iff s).1 happly
    exact hostWrite_of_effect_changes_cell hne

/-! ## A call, and the fetch after it (R41, R80) -/

theorem lowByte_eq_lo8 (v : Word) : lowByte v = lo8 v := (lo8_eq_setWidth v).symm

theorem highByte_eq_hi8 (v : Word) : highByte v = hi8 v := (hi8_eq_setWidth v).symm

/-- The call whose three bytes stand at `pc` (R80). -/
theorem State.nextInstr_of_jsr {s : State} (h : s.mem.read s.pc = 0x20#8) :
    s.nextInstr = .jsrAbs (join16 (s.mem.read (s.pc + 1#16)) (s.mem.read (s.pc + 2#16))) := by
  rw [State.nextInstr, fetchInstr_fst, Traced.start_st, h, opcodeOf_jsrAbs, Word.add_one_add_one]

/-- The step of a call: it continues at the operand, over the memory in which the address of its last byte has been
stored. -/
theorem step_jsr {s : State} (hc : s.cyc ≠ 0#32) (h : s.mem.read s.pc = 0x20#8) :
    ∃ t, step s = .next t ∧ t.pc = s.mem.read (s.pc + 2#16) ++ s.mem.read (s.pc + 1#16) ∧
      t.mem = s.afterPush (s.pc + 2#16) := by
  refine ⟨_, step_eq_perform hc, ?_, ?_⟩
  · rw [State.nextInstr_of_jsr h, ← join16_eq_append]
    rfl
  · rw [State.afterFetch, State.nextInstr_of_jsr h, ← Word.add_three_sub_one]
    rfl

/-- Settles O41: the fetch after a call reads the memory with the call's two stores in it, at the operand. -/
theorem storeIsSeenByTheNextFetch : Obligations.StoreIsSeenByTheNextFetch := by
  rintro ll hh s hc hop rfl rfl
  obtain ⟨t, hstep, hpc, hmem⟩ := step_jsr hc hop
  refine ⟨t, hstep, hpc, fun hlow => ?_, fun hhigh => ?_⟩
  · rw [fetch8_fst, Traced.start_st, hpc, hlow, hmem, State.read_afterPush, if_pos rfl, lowByte_eq_lo8]
  · rw [fetch8_fst, Traced.start_st, hpc, hhigh, hmem, State.read_afterPush, if_neg (Word.add_one_ne s.sp), if_pos rfl,
      highByte_eq_hi8]

/-! ## The primitives and the host's accesses (R31, R33, R43) -/

/-- What any cell holds after `Write16`. -/
theorem read_write16 (w a b : Word) (t : Traced) :
    (write16 w a t).st.mem.read b =
      if b = a then lo8 w else if b = a + 1#16 then hi8 w else t.st.mem.read b := by
  rw [write16_st, State.debit_mem, State.setMem_mem, Memory.read_write16_low_first]

/-- Settles O9: the two primitives as they are defined, and the law of a read after a write. -/
theorem memoryPrimitives : Obligations.MemoryPrimitives :=
  fun a v t => ⟨rfl, rfl, fun b => Memory.read_write t.st.mem a b v⟩

/-- Settles O10: the two byte writes with their accesses, and the rule's example as two cells of a store. -/
theorem write16StoresLittleEndian : Obligations.Write16StoresLittleEndian := by
  refine ⟨fun v a t => ⟨?_, fun b => ?_⟩, fun t => ⟨?_, ?_⟩⟩
  · rw [lowByte_eq_lo8, highByte_eq_hi8, ← write16_trace]
    rfl
  · rw [lowByte_eq_lo8, highByte_eq_hi8, read_write16]
  · rw [read_write16, if_pos rfl]
    rfl
  · rw [read_write16, if_neg (by decide), if_pos (by decide)]
    rfl

/-- Settles O44: `HostWrite` is one write to memory, read back by the law of a read after a write. -/
theorem hostAccessIsDirect : Obligations.HostAccessIsDirect :=
  fun a v s => ⟨fun b => Memory.read_write s.mem a b v, rfl⟩

end Sys2Proof.Machine
end

section
/-! PROOFS. The encoding: the opcode map, the decoder and the encoder as inverses, and the instruction a step runs (spec
file 30_encoding.md). -/

namespace Sys2Proof

/-! ## The opcode map (R52, R53, R57) -/

/-- An unsupported byte is told from the four supported ones by value. -/
theorem opcodeOf_eq_unsupported_iff_ne (b : Byte) :
    opcodeOf b = .unsupported ↔ b ≠ 0x20#8 ∧ b ≠ 0xA5#8 ∧ b ≠ 0xA9#8 ∧ b ≠ 0xB5#8 := by
  simp [opcodeOf_unsupported_iff, supportedOpcodes]

/-- The four supported values lie apart, so the other bytes form five ranges (R53). -/
theorem opcodeOf_eq_unsupported_iff_range (b : Byte) :
    opcodeOf b = .unsupported ↔
      b ≤ 0x1F#8 ∨ (0x21#8 ≤ b ∧ b ≤ 0xA4#8) ∨ (0xA6#8 ≤ b ∧ b ≤ 0xA8#8) ∨ (0xAA#8 ≤ b ∧ b ≤ 0xB4#8) ∨
        0xB6#8 ≤ b := by
  rw [opcodeOf_eq_unsupported_iff_ne]
  bv_omega

/-- Well-formedness of an unsupported instruction is the decoder's own test of its byte (R53). -/
theorem Instr.wf_unsupported_iff (b : Byte) : (Instr.unsupported b).wf = true ↔ opcodeOf b = .unsupported := by
  simp [Instr.wf, opcodeOf_unsupported_iff]

/-! ## The decoder, one equation per opcode (R50 to R52) -/

section
variable (d ll hh : Byte) (rest : List Byte)

@[simp] theorem decode_ldaImm : decode (0xA9#8 :: d :: rest) = .ok (.ldaImm d, rest) := rfl
@[simp] theorem decode_ldaZp : decode (0xA5#8 :: d :: rest) = .ok (.ldaZp d, rest) := rfl
@[simp] theorem decode_ldaZpX : decode (0xB5#8 :: d :: rest) = .ok (.ldaZpX d, rest) := rfl
@[simp] theorem decode_jsrAbs : decode (0x20#8 :: ll :: hh :: rest) = .ok (.jsrAbs (join16 ll hh), rest) := rfl

/-- An unsupported byte is decoded alone, whatever follows it. -/
theorem decode_unsupported {b : Byte} (h : opcodeOf b = .unsupported) :
    decode (b :: rest) = .ok (.unsupported b, rest) := by
  simp [decode, h]

end

/-! ## Decoding and encoding are inverse to each other (R50 to R54) -/

/-- The decoder reads back what the encoder writes, and stops at its end. -/
theorem decode_encode_append {i : Instr} (h : i.wf = true) (rest : List Byte) :
    decode (encode i ++ rest) = .ok (i, rest) := by
  cases i with
  | jsrAbs target =>
    have hdecode := decode_jsrAbs (lo8 target) (hi8 target) rest
    rwa [join16_lo8_hi8] at hdecode
  | ldaZp d => exact decode_ldaZp d rest
  | ldaImm d => exact decode_ldaImm d rest
  | ldaZpX d => exact decode_ldaZpX d rest
  | unsupported b => exact decode_unsupported rest ((Instr.wf_unsupported_iff b).1 h)

/-- The encoder writes the bytes a call is decoded from. -/
theorem encode_jsrAbs_join16 (ll hh : Byte) : encode (.jsrAbs (join16 ll hh)) = [0x20#8, ll, hh] := by
  simp [encode]

/-- All that the decoder can answer: a well-formed instruction whose encoding the input begins with. -/
theorem wf_and_eq_encode_append_of_decode {bytes rest : List Byte} {i : Instr} (h : decode bytes = .ok (i, rest)) :
    i.wf = true ∧ bytes = encode i ++ rest := by
  unfold decode at h
  split at h
  · cases h
  next b operand =>
    split at h
    next ll hh _ hop =>
      cases h
      rw [encode_jsrAbs_join16, (opcodeOf_eq_jsrAbs_iff b).1 hop]
      exact ⟨rfl, rfl⟩
    next hop => cases h; exact ⟨rfl, (opcodeOf_eq_ldaZp_iff b).1 hop ▸ rfl⟩
    next hop => cases h; exact ⟨rfl, (opcodeOf_eq_ldaImm_iff b).1 hop ▸ rfl⟩
    next hop => cases h; exact ⟨rfl, (opcodeOf_eq_ldaZpX_iff b).1 hop ▸ rfl⟩
    next hop => cases h; exact ⟨(Instr.wf_unsupported_iff b).2 hop, rfl⟩
    all_goals cases h

/-- An encoding has the length its opcode gives it (R54). -/
@[simp] theorem length_encode (i : Instr) : (encode i).length = i.length := by
  cases i <;> rfl

/-- Settles O2: one equation of the decoder per instruction. -/
theorem decodeOfEncodeIsTheInstruction : Obligations.DecodeOfEncodeIsTheInstruction :=
  fun _ rest hwf => decode_encode_append hwf rest

/-- Settles O3: each answer of the decoder names the byte it matched, and lengths follow from the bytes. -/
theorem encodeOfDecodeIsTheBytes : Obligations.EncodeOfDecodeIsTheBytes := by
  intro bytes rest i h
  obtain ⟨hwf, hbytes⟩ := wf_and_eq_encode_append_of_decode h
  exact ⟨hwf, hbytes, by rw [hbytes, List.length_append, length_encode]⟩

/-- Settles O4: the four matched values by their equations, every other byte as the unsupported one it then is. -/
theorem decoderIsTotalAndExact : Obligations.DecoderIsTotalAndExact := by
  intro b o1 o2 rest
  split_ifs with himm hzp hzpx hjsr
  · rw [himm, decode_ldaImm]
  · rw [hzp, decode_ldaZp]
  · rw [hzpx, decode_ldaZpX]
  · rw [hjsr, decode_jsrAbs, join16_eq_append]
  · exact decode_unsupported _ ((opcodeOf_eq_unsupported_iff_ne b).2 ⟨hjsr, hzp, himm, hzpx⟩)

/-- Settles O1: each word by the equation of its opcode byte; a table word has the bytes of its numbering. -/
theorem decodesWordsWrittenOut : Obligations.DecodesWordsWrittenOut :=
  ⟨decode_jsrAbs 0x34#8 0x12#8 _, decode_ldaZp _ _, decode_ldaImm _ _, decode_ldaZpX _ _, decode_unsupported _ rfl,
    rfl, rfl⟩

/-- Settles O5: the ranges by arithmetic on the four gaps between them; the count is one evaluation of the map. -/
theorem unsupportedBytesAreTheListed252 : Obligations.UnsupportedBytesAreTheListed252 :=
  ⟨opcodeOf_eq_unsupported_iff_range, by decide +kernel, by decide⟩

end Sys2Proof

namespace Sys2Proof.Machine

/-! ## The instruction a step runs (R51, R60 to R62) -/

/-- The machine fetches the very instruction the decoder reads from the three bytes at `pc`. -/
theorem decode_bytesAt_pc (s : State) :
    decode (s.bytesAt s.pc 3) = .ok (s.nextInstr, (s.bytesAt s.pc 3).drop s.nextInstr.length) := by
  rw [Instr.length, State.nextInstr_opcode, State.nextInstr, fetchInstr_fst, Traced.start_st]
  cases hop : opcodeOf (s.mem.read s.pc) <;> simp [State.bytesAt, decode, hop, Opcode.length]

/-- With a cycle left the step is the meaning of the next instruction, run where its bytes have been fetched. -/
theorem step_eq_exec {s : State} (h : s.cyc ≠ 0#32) : step s = exec s.nextInstr s.afterFetch := by
  rw [step_eq_perform h, exec_eq_perform]

/-- Settles O6: the decoded instruction is the fetched one, and its fetch is the stated move of `pc` and debit. -/
theorem stepRunsTheDecodedInstruction : Obligations.StepRunsTheDecodedInstruction := by
  intro s i rest hcyc hdecode
  have hnext : s.nextInstr = i := by
    rw [decode_bytesAt_pc] at hdecode
    injection hdecode with hpair
    exact congrArg Prod.fst hpair
  rw [step_eq_exec hcyc, State.afterFetch, hnext]
  rfl

end Sys2Proof.Machine
end

section
/-! PROOFS. The execute loop: the cycle debit, instruction fetch, what one pass costs and reads, and a whole `Execute`
(spec file 40_execute_loop.md). -/

namespace Sys2Proof.Machine

/-! ## No cycle left, the fetches and the debit (R61 to R64) -/

/-- A state with its trace is these two parts. -/
@[ext] theorem Traced.ext {t u : Traced} (hst : t.st = u.st) (htrace : t.trace = u.trace) : t = u := by
  cases t
  cases u
  simp_all only

/-- Settles O7: the step keeps an idle state, and a run of no cycles has no pass. -/
theorem stepWithSpentBudgetKeepsState : Obligations.StepWithSpentBudgetKeepsState :=
  ⟨fun _ h => step_idle h, fun _ _ => rfl⟩

/-- Settles O11: the definition of the fetch, and the modular sum as a remainder. -/
theorem fetch8ReadsAdvancesDebits : Obligations.Fetch8ReadsAdvancesDebits :=
  fun t => ⟨rfl, BitVec.toNat_add t.st.pc 1#16⟩

/-- Settles O12: two fetches in a row, whose bytes stand side by side in the word. -/
theorem fetch16CombinesLittleEndian : Obligations.Fetch16CombinesLittleEndian := by
  intro t
  refine ⟨?_, Traced.ext (fetch16_st t) (fetch16_trace t)⟩
  rw [fetch16_fst, toNat_join16]

/-- Settles O13: the debit is the truncated subtraction of natural numbers. -/
theorem debitSaturatesAtZero : Obligations.DebitSaturatesAtZero := by
  intro k s
  have hcyc : (s.debit k).cyc.toNat = s.cyc.toNat - k.toNat := toNat_debited k s.cyc
  refine ⟨rfl, fun _ => hcyc, fun h => BitVec.eq_of_toNat_eq ?_, ?_⟩
  · rw [hcyc, BitVec.toNat_zero, Nat.sub_eq_zero_of_le (Nat.le_of_lt h)]
  · rw [BitVec.le_def, hcyc]
    exact Nat.sub_le _ _

/-! ## The cost and the accesses of one pass (R66) -/

theorem State.nextInstr_cycles (s : State) : s.nextInstr.cycles = (costAndAccesses s).1 := by
  rw [State.nextInstr, fetchInstr_fst, Traced.start_st, costAndAccesses]
  cases opcodeOf (s.mem.read s.pc) <;> rfl

/-- The reads of the fetch, then the accesses of the meaning, opcode by opcode. -/
theorem bodyWith_start_trace (c : Config) (s : State) : (bodyWith c (.start s)).trace = (costAndAccesses s).2 := by
  have hinstr := fetchInstr_fst (.start s)
  have hreads := fetchInstr_trace (.start s)
  have hst := fetchInstr_st (.start s)
  rw [bodyWith, costAndAccesses]
  cases hop : opcodeOf (s.mem.read s.pc) <;> simp only [Traced.start_st, hop] at hinstr hreads <;> rw [hinstr] at hst ⊢
  case ldaImm => exact hreads
  case unsupported => exact hreads
  case ldaZp => simp [perform, hreads, hst, eaZp, zext16]
  case ldaZpX => simp [perform, hreads, hst, eaZpX, zext16]
  case jsrAbs =>
    have hret : (fetchInstr (.start s)).2.st.pc - 1#16 = s.pc + 2#16 := by
      rw [hst]
      exact Word.add_three_sub_one s.pc
    have hsp : (fetchInstr (.start s)).2.st.sp = s.sp := by rw [hst]; rfl
    simp [perform, hreads, hret, hsp, Word.add_one_add_one, lo8_eq_setWidth, hi8_eq_setWidth]

/-- Settles O30: a pass debits what its instruction costs, and the costs and accesses agree with the table opcode by
opcode. -/
theorem stepCostsAndAccesses : Obligations.StepCostsAndAccesses := by
  intro c s
  refine ⟨?_, bodyWith_start_trace c s, s.nextInstr_cycles⟩
  rw [← State.nextInstr_cycles]
  exact toNat_bodyWith_cyc c (.start s)

/-! ## A whole `Execute`, without its fuel (R60, R61)

`executeWith` runs the loop with a fuel that is never short (R67). These names leave the fuel out, so that a proof about a
whole run is one induction over the passes of the loop. -/

/-- The loop from a boundary until its counter is spent. -/
def Traced.finish (c : Config) (t : Traced) : Traced := loopWith c t.st.cyc.toNat t

/-- The instructions it runs. -/
def Traced.instrs (c : Config) (t : Traced) : List Instr := loopInstrs c t.st.cyc.toNat t

theorem executeWith_eq_finish (c : Config) (n : Cycles) (s : State) :
    executeWith c n s = (Traced.start (s.setCyc n)).finish c := rfl

theorem executedInstrs_eq_instrs (c : Config) (n : Cycles) (s : State) :
    executedInstrs c n s = (Traced.start (s.setCyc n)).instrs c := rfl

/-- A pass from a boundary with cycles left lowers the counter. -/
theorem toNat_bodyWith_cyc_lt (c : Config) {t : Traced} (h : t.st.idle = false) :
    (bodyWith c t).st.cyc.toNat < t.st.cyc.toNat := by
  have hcost := (fetchInstr t).1.cycles_bounds.1
  have hpos := State.toNat_cyc_ne_zero_of_not_idle h
  rw [toNat_bodyWith_cyc]
  omega

/-- Induction over the passes of a run: what holds where the run is over, and before a pass if after it, holds of every
boundary. -/
theorem boundary_induction (c : Config) {P : Traced → Prop} (idle : ∀ t, t.st.idle = true → P t)
    (running : ∀ t, t.st.idle = false → P (bodyWith c t) → P t) (t : Traced) : P t := by
  induction hn : t.st.cyc.toNat using Nat.strong_induction_on generalizing t with
  | _ n ih =>
    cases h : t.st.idle with
    | true => exact idle t h
    | false => exact running t h (ih _ (hn ▸ toNat_bodyWith_cyc_lt c h) _ rfl)

/-- Fuel beyond the counter changes nothing: neither the run nor the instructions it runs. -/
theorem loop_of_cyc_le (c : Config) (t : Traced) {n : Nat} (h : t.st.cyc.toNat ≤ n) :
    loopWith c n t = t.finish c ∧ loopInstrs c n t = t.instrs c := by
  suffices hfuel : ∀ m, t.st.cyc.toNat ≤ m → loopWith c n t = loopWith c m t ∧ loopInstrs c n t = loopInstrs c m t from
    hfuel _ (Nat.le_refl _)
  induction t using boundary_induction c generalizing n with
  | idle t hidle => simp [loopWith_idle, loopInstrs_idle, hidle]
  | running t hidle ih =>
    intro m hm
    have hlt := toNat_bodyWith_cyc_lt c hidle
    obtain ⟨n, rfl⟩ := Nat.exists_eq_add_one_of_ne_zero (n := n) (by omega)
    obtain ⟨m, rfl⟩ := Nat.exists_eq_add_one_of_ne_zero (n := m) (by omega)
    obtain ⟨hrun, hinstrs⟩ := ih (n := n) (by omega) m (by omega)
    simp only [loopWith_running c _ hidle, loopInstrs_running c _ hidle, hrun, hinstrs, and_self]

section
variable {t : Traced}

theorem Traced.finish_idle (c : Config) (h : t.st.idle = true) : t.finish c = t := loopWith_idle c _ h

theorem Traced.instrs_idle (c : Config) (h : t.st.idle = true) : t.instrs c = [] := loopInstrs_idle c _ h

theorem Traced.finish_running (c : Config) (h : t.st.idle = false) : t.finish c = (bodyWith c t).finish c := by
  have hlt := toNat_bodyWith_cyc_lt c h
  rw [← (loop_of_cyc_le c t (Nat.le_succ _)).1, loopWith_running c _ h, (loop_of_cyc_le c _ (by omega)).1]

theorem Traced.instrs_running (c : Config) (h : t.st.idle = false) :
    t.instrs c = (fetchInstr t).1 :: (bodyWith c t).instrs c := by
  have hlt := toNat_bodyWith_cyc_lt c h
  rw [← (loop_of_cyc_le c t (Nat.le_succ _)).2, loopInstrs_running c _ h, (loop_of_cyc_le c _ (by omega)).2]

end

/-! ## The bounds of a run (R67 (a), (b)) -/

theorem Traced.finish_cyc (c : Config) (t : Traced) : (t.finish c).st.cyc = 0#32 := by
  induction t using boundary_induction c with
  | idle t h =>
    rw [Traced.finish_idle c h]
    exact (State.idle_eq_true_iff _).1 h
  | running t h ih => rwa [Traced.finish_running c h]

theorem Traced.length_instrs_le (c : Config) (t : Traced) : (t.instrs c).length ≤ t.st.cyc.toNat := by
  induction t using boundary_induction c with
  | idle t h => simp [Traced.instrs_idle c h]
  | running t h ih =>
    have hlt := toNat_bodyWith_cyc_lt c h
    rw [Traced.instrs_running c h, List.length_cons]
    omega

theorem Traced.instrs_eq_nil_iff (c : Config) (t : Traced) : t.instrs c = [] ↔ t.st.idle = true := by
  cases h : t.st.idle with
  | true => simp [Traced.instrs_idle c h]
  | false => simp [Traced.instrs_running c h]

/-- The instructions of a run use up its counter. -/
theorem Traced.cyc_le_totalCycles_instrs (c : Config) (t : Traced) : t.st.cyc.toNat ≤ totalCycles (t.instrs c) := by
  induction t using boundary_induction c with
  | idle t h => simp [(State.idle_eq_true_iff _).1 h]
  | running t h ih =>
    rw [toNat_bodyWith_cyc] at ih
    rw [Traced.instrs_running c h, totalCycles_cons]
    omega

/-- All but the last of them leave some of it: the last one began at a boundary with cycles left. -/
theorem Traced.totalCycles_dropLast_instrs_lt (c : Config) (t : Traced) (h : t.st.idle = false) :
    totalCycles (t.instrs c).dropLast < t.st.cyc.toNat := by
  induction t using boundary_induction c with
  | idle t hidle => simp [hidle] at h
  | running t _ ih =>
    rw [Traced.instrs_running c h]
    cases hlast : (bodyWith c t).st.idle with
    | true =>
      rw [Traced.instrs_idle c hlast]
      exact Nat.pos_of_ne_zero (State.toNat_cyc_ne_zero_of_not_idle h)
    | false =>
      have hne : (bodyWith c t).instrs c ≠ [] := by simp [Traced.instrs_eq_nil_iff, hlast]
      have hrest := ih hlast
      rw [toNat_bodyWith_cyc] at hrest
      rw [List.dropLast_cons_of_ne_nil hne, totalCycles_cons]
      omega

/-- Settles O53: each bound by induction over the passes of the run, of which each debits its instruction's cost. -/
theorem executeEndsWithinItsBounds : Obligations.ExecuteEndsWithinItsBounds := by
  intro c n s
  let t := Traced.start (s.setCyc n)
  have hidle : t.st.idle = true ↔ n = 0#32 := State.idle_eq_true_iff t.st
  rw [executeWith_eq_finish, executedInstrs_eq_instrs]
  refine ⟨t.finish_cyc c, t.length_instrs_le c, (t.instrs_eq_nil_iff c).trans hidle, t.cyc_le_totalCycles_instrs c,
    totalCycles_executedInstrs_le c n s, fun hn => t.totalCycles_dropLast_instrs_lt c ?_⟩
  exact (State.idle_eq_false_iff t.st).2 hn

/-! ## A run is the iterated step (R65) -/

theorem run_core_idle (k : Nat) {s : State} (h : s.cyc = 0#32) : Host.Core.run core k s = .next s := by
  induction k with
  | zero => rfl
  | succ k ih =>
    have hstep : core.step s = .next s := step_idle h
    simpa only [Host.Core.run, hstep] using ih

theorem run_core_running (k : Nat) {t : Traced} (h : t.st.idle = false) :
    Host.Core.run core (k + 1) t.st = Host.Core.run core k (bodyWith machineConfig t).st := by
  have hstep : core.step t.st = .next (bodyWith machineConfig t).st := by
    rw [bodyWith_st]
    exact step_running ((State.idle_eq_false_iff _).1 h)
  simp only [Host.Core.run, hstep]

/-- The machine run for at least as many steps as the run has is in the run's final state. -/
theorem run_core_of_length_instrs_le (t : Traced) {k : Nat} (h : (t.instrs machineConfig).length ≤ k) :
    Host.Core.run core k t.st = .next (t.finish machineConfig).st := by
  induction t using boundary_induction machineConfig generalizing k with
  | idle t hidle =>
    rw [Traced.finish_idle _ hidle]
    exact run_core_idle k ((State.idle_eq_true_iff _).1 hidle)
  | running t hidle ih =>
    rw [Traced.instrs_running _ hidle, List.length_cons] at h
    obtain ⟨k, rfl⟩ := Nat.exists_eq_add_one_of_ne_zero (n := k) (by omega)
    rw [run_core_running k hidle, Traced.finish_running _ hidle]
    exact ih (by omega)

/-- Before each of the run's steps there are cycles left. -/
theorem run_core_of_lt_length_instrs (t : Traced) {j : Nat} (h : j < (t.instrs machineConfig).length) :
    ∃ s, Host.Core.run core j t.st = .next s ∧ s.cyc ≠ 0#32 := by
  induction t using boundary_induction machineConfig generalizing j with
  | idle t hidle => simp [Traced.instrs_idle _ hidle] at h
  | running t hidle ih =>
    cases j with
    | zero => exact ⟨t.st, rfl, (State.idle_eq_false_iff _).1 hidle⟩
    | succ j =>
      rw [Traced.instrs_running _ hidle, List.length_cons] at h
      rw [run_core_running j hidle]
      exact ih (by omega)

/-- Settles O56: a step from a boundary with cycles left is one pass of the loop, and the run has one pass per
instruction. -/
theorem executeIsTheIteratedStep : Obligations.ExecuteIsTheIteratedStep := by
  intro budget s
  let t := Traced.start (s.setCyc budget)
  exact ⟨fun _ hj => run_core_of_lt_length_instrs t hj, run_core_of_length_instrs_le t (Nat.le_refl _)⟩

/-- Settles O57: a run has at most as many steps as its budget, and the steps after it keep the state. -/
theorem runsOfBudgetManyStepsReachTheEnd : Obligations.RunsOfBudgetManyStepsReachTheEnd := by
  intro budget s k hk
  let t := Traced.start (s.setCyc budget)
  exact run_core_of_length_instrs_le t ((t.length_instrs_le machineConfig).trans hk)

/-! ## No pass looks at the counter or at the accesses already made (R46, R61) -/

/-- With another counter the same instruction is fetched, by the same accesses. -/
theorem fetchInstr_setCyc (k : Cycles) (t : Traced) :
    (fetchInstr (t.on (State.setCyc k))).1 = (fetchInstr t).1 ∧
      ∃ k', (fetchInstr (t.on (State.setCyc k))).2 = (fetchInstr t).2.on (State.setCyc k') := by
  have hfst : (fetchInstr (t.on (State.setCyc k))).1 = (fetchInstr t).1 := by simp [fetchInstr_fst]
  refine ⟨hfst, debited (BitVec.ofNat 32 (fetchInstr t).1.length) k, Traced.ext ?_ ?_⟩
  · rw [fetchInstr_st, hfst, Traced.on_st, Traced.on_st, fetchInstr_st t]
    rfl
  · simp [fetchInstr_trace]

/-- With another counter a meaning does the same, but for the counter it leaves. -/
theorem perform_setCyc (c : Config) (i : Instr) (k : Cycles) (t : Traced) :
    ∃ k', perform c i (t.on (State.setCyc k)) = (perform c i t).on (State.setCyc k') := by
  cases i <;> exact ⟨_, rfl⟩

/-- With another counter a pass does the same, and debits its cost from that counter. -/
theorem bodyWith_setCyc (c : Config) (k : Cycles) (t : Traced) :
    ∃ k' : Cycles, bodyWith c (t.on (State.setCyc k)) = (bodyWith c t).on (State.setCyc k') ∧
      k'.toNat = k.toNat - (fetchInstr t).1.cycles := by
  obtain ⟨hinstr, kf, hfetch⟩ := fetchInstr_setCyc k t
  obtain ⟨k', hperform⟩ := perform_setCyc c (fetchInstr t).1 kf (fetchInstr t).2
  have hbody : bodyWith c (t.on (State.setCyc k)) = (bodyWith c t).on (State.setCyc k') := by
    rw [bodyWith, hinstr, hfetch, hperform, bodyWith]
  have hcyc := toNat_bodyWith_cyc c (t.on (State.setCyc k))
  rw [hbody, hinstr] at hcyc
  exact ⟨k', hbody, hcyc⟩

/-- The same state, reached after other accesses that came first. -/
def Traced.after (earlier : List Access) (t : Traced) : Traced := ⟨t.st, earlier ++ t.trace⟩

section
variable (earlier : List Access) (t : Traced)

@[simp] theorem Traced.after_st : (t.after earlier).st = t.st := rfl
@[simp] theorem Traced.after_trace : (t.after earlier).trace = earlier ++ t.trace := rfl

end

theorem Traced.eq_start_after (t : Traced) : t = (Traced.start t.st).after t.trace :=
  Traced.ext rfl (by simp)

theorem perform_after (c : Config) (i : Instr) (earlier : List Access) (t : Traced) :
    perform c i (t.after earlier) = (perform c i t).after earlier := by
  refine Traced.ext ?_ ?_
  · cases i <;> rfl
  · cases i <;> simp [perform]

theorem bodyWith_after (c : Config) (earlier : List Access) (t : Traced) :
    bodyWith c (t.after earlier) = (bodyWith c t).after earlier := by
  have hinstr : (fetchInstr (t.after earlier)).1 = (fetchInstr t).1 := by simp [fetchInstr_fst]
  have hfetch : (fetchInstr (t.after earlier)).2 = (fetchInstr t).2.after earlier := by
    refine Traced.ext ?_ ?_
    · rw [fetchInstr_st, hinstr]
      exact (fetchInstr_st t).symm
    · simp [fetchInstr_trace]
  rw [bodyWith, hinstr, hfetch, perform_after, bodyWith]

theorem Traced.finish_after (c : Config) (earlier : List Access) (t : Traced) :
    (t.after earlier).finish c = (t.finish c).after earlier := by
  induction t using boundary_induction c with
  | idle t h => rw [Traced.finish_idle c h, Traced.finish_idle c (t := t.after earlier) h]
  | running t h ih =>
    rw [Traced.finish_running c h, Traced.finish_running c (t := t.after earlier) h, bodyWith_after, ih]

/-! ## Runs put together at a boundary (R67 (d), R68) -/

/-- A run whose counter exceeds the cost of the run `t` by `rest` is the run `t` and then a run with `rest`. -/
theorem Traced.finish_setCyc (c : Config) (t : Traced) {m rest : Cycles}
    (h : m.toNat = totalCycles (t.instrs c) + rest.toNat) :
    (t.on (State.setCyc m)).finish c = ((t.finish c).on (State.setCyc rest)).finish c := by
  induction t using boundary_induction c generalizing m with
  | idle t hidle =>
    rw [Traced.instrs_idle c hidle] at h
    have hm : m = rest := BitVec.eq_of_toNat_eq (by simpa [totalCycles] using h)
    rw [Traced.finish_idle c hidle, hm]
  | running t hidle ih =>
    rw [Traced.instrs_running c hidle, totalCycles_cons] at h
    obtain ⟨m', hbody, hm'⟩ := bodyWith_setCyc c m t
    have hcost := (fetchInstr t).1.cycles_bounds.1
    have hleft : (t.on (State.setCyc m)).st.idle = false := by
      rw [State.idle_eq_false_iff]
      rintro (rfl : m = 0#32)
      simp at h
      omega
    rw [Traced.finish_running c hleft, hbody, Traced.finish_running c hidle]
    exact ih (by omega)

/-- Settles O55: the run with the cost of its own steps as its counter has nothing left after them. -/
theorem executeRoundsUpToABoundary : Obligations.ExecuteRoundsUpToABoundary := by
  intro c n n' s hn'
  let t := Traced.start (s.setCyc n)
  have hsame : (t.finish c).on (State.setCyc 0#32) = t.finish c := by
    rw [← t.finish_cyc c]
    rfl
  have hidle : (t.finish c).st.idle = true := (State.idle_eq_true_iff _).2 (t.finish_cyc c)
  calc executeWith c n s
    _ = t.finish c := executeWith_eq_finish c n s
    _ = ((t.finish c).on (State.setCyc 0#32)).finish c := by rw [hsame, Traced.finish_idle c hidle]
    _ = (t.on (State.setCyc n')).finish c := (t.finish_setCyc c hn').symm
    _ = executeWith c n' s := (executeWith_eq_finish c n' s).symm

/-- Settles O58: the counter `a + b` exceeds the cost of the first run by `b`; the second run begins at the state the
first one left, whose accesses it does not look at. -/
theorem runsSplitAtBoundaries : Obligations.RunsSplitAtBoundaries := by
  refine ⟨fun c a b s hcost hsum => ?_, fun c n left s => rfl⟩
  let t := Traced.start (s.setCyc a)
  have hab : (a + b).toNat = totalCycles (t.instrs c) + b.toNat := by
    rw [BitVec.toNat_add, Nat.mod_eq_of_lt hsum, ← hcost, executedInstrs_eq_instrs]
  have hsplit : executeWith c (a + b) s = (executeWith c b (t.finish c).st).after (t.finish c).trace := by
    calc executeWith c (a + b) s
      _ = ((t.finish c).on (State.setCyc b)).finish c := t.finish_setCyc c hab
      _ = (executeWith c b (t.finish c).st).after (t.finish c).trace := by
        rw [Traced.eq_start_after ((t.finish c).on (State.setCyc b)), Traced.finish_after]
        rfl
  rw [hsplit, executeWith_eq_finish c a s]
  exact ⟨rfl, rfl⟩

end Sys2Proof.Machine
end

section
/-! PROOFS. The loads: `SetZN`, the two effective addresses, what each load answers, and the whole step of each (spec
file 41_load.md). -/

namespace Sys2Proof.Machine

/-! ## `SetZN` and the write of the accumulator (R70) -/

/-- The flags `SetZN` assigns, in the spelling of the statements. -/
theorem Status.withZN_eq (v : Byte) (p : Status) : p.withZN v = { p with z := decide (v = 0#8), n := v.msb } := by
  rw [BitVec.msb_eq_getLsbD_last]
  rfl

theorem State.setZN_eq (v : Byte) (s : State) :
    s.setZN v = { s with p := { s.p with z := decide (v = 0#8), n := v.msb } } := by
  rw [State.setZN, Status.withZN_eq]
  rfl

/-- The end of every load, as a whole state. -/
theorem State.loadAccumulator_eq (v : Byte) (s : State) :
    s.loadAccumulator v = { s with
      regs := { s.regs with a := v }
      p := { s.p with z := decide (v = 0#8), n := v.msb } } :=
  (s.setReg .accumulator v).setZN_eq v

/-- Settles O14: the loads run `SetZN` by definition; its outcomes follow from the value as an unsigned number, whose
bit 7 says that it is 128 or more. -/
theorem setZNAssignsZeroAndNegative : Obligations.SetZNAssignsZeroAndNegative := by
  refine ⟨fun d t => ⟨rfl, rfl, rfl⟩, fun v s => ?_⟩
  have hz : (s.setZN v).p.z = decide (v.toNat = 0) := by simp [State.setZN_eq, BitVec.toNat_eq]
  have hn : (s.setZN v).p.n = decide (128 ≤ v.toNat) := by rw [State.setZN_eq, BitVec.msb_eq_decide]
  refine ⟨s.setZN_eq v, Status.withZN_not_both v s.p, ?zero, ?positive, ?negative⟩ <;> rw [hz, hn]
  case zero =>
    rintro rfl
    exact ⟨rfl, rfl⟩
  case positive =>
    intro hlow hhigh
    have hlow : 1 ≤ v.toNat := hlow
    have hhigh : v.toNat ≤ 127 := hhigh
    exact ⟨decide_eq_false (by omega), decide_eq_false (by omega)⟩
  case negative =>
    intro hlow
    have hlow : 128 ≤ v.toNat := hlow
    exact ⟨decide_eq_false (by omega), decide_eq_true hlow⟩

/-! ## The effective addresses and their data reads (R74, R75) -/

/-- A byte as an address is in page 0 (R74). -/
theorem toNat_zext16_le (v : Byte) : (zext16 v).toNat ≤ 255 := by
  rw [toNat_zext16]
  exact Nat.le_of_lt_succ v.isLt

/-- Two debits in a row are one of the sum. -/
theorem State.debit_debit {k l : Cycles} (s : State) (h : k.toNat + l.toNat < 2 ^ 32) :
    (s.debit l).debit k = s.debit (k + l) :=
  congrArg (fun cyc => s.setCyc cyc) (debited_debited s.cyc h)

/-- The index computation and the data read together debit two cycles (R73, R75). -/
theorem readZpX_st (d8 : Byte) (t : Traced) : (readZpX d8 t).2.st = t.st.debit 2#32 :=
  t.st.debit_debit (by decide)

/-- Settles O15: the address is the operand byte zero-extended, and the datum is one data read. -/
theorem zeroPageAddressIsTheOperand : Obligations.ZeroPageAddressIsTheOperand :=
  fun d8 _ => ⟨rfl, toNat_zext16 d8, toNat_zext16_le d8, rfl⟩

/-- Settles O16: the 8-bit sum is the sum modulo 256, and its cycle is debited with the data read's. -/
theorem indexedAddressWrapsInPageZero : Obligations.IndexedAddressWrapsInPageZero := by
  refine ⟨fun d8 x => ⟨?_, toNat_zext16_le _⟩, fun d8 t => ?_, rfl, rfl, rfl, rfl, fun d8 => ?_⟩
  · rw [eaZpX, toNat_zext16, BitVec.toNat_add]
  · exact Prod.ext rfl (Traced.ext (readZpX_st d8 t) rfl)
  · rw [eaZpX, BitVec.add_zero, zext16]

/-! ## What each load answers (R71 to R73) -/

section
variable (c : Config) (d8 : Byte) (s : State)

theorem perform_ldaImm : (perform c (.ldaImm d8) (.start s)).st = (s.debit 0#32).loadAccumulator d8 := by
  rw [State.debit, debited_of_zero]
  rfl

theorem perform_ldaZp :
    (perform c (.ldaZp d8) (.start s)).st = (s.debit 1#32).loadAccumulator (s.mem.read (d8.setWidth 16)) := rfl

theorem perform_ldaZpX :
    (perform c (.ldaZpX d8) (.start s)).st =
      (s.debit 2#32).loadAccumulator (s.mem.read ((d8 + s.regs.x).setWidth 16)) :=
  congrArg (State.loadAccumulator _) (readZpX_st d8 (.start s))

end

/-- Settles O20: the immediate load debits nothing after its fetch. -/
theorem execLdaImmResult : Obligations.ExecLdaImmResult := by
  intro v s
  rw [exec_eq_perform, perform_ldaImm, State.loadAccumulator_eq, State.debit, debited_of_zero]
  rfl

/-- Settles O21: one debit, then the accumulator loaded from the zero page. -/
theorem execLdaZpResult : Obligations.ExecLdaZpResult := by
  rintro d8 v s rfl
  rw [exec_eq_perform, perform_ldaZp, State.loadAccumulator_eq]
  rfl

/-- Settles O22: two debits, then the accumulator loaded from the zero page at the 8-bit sum. -/
theorem execLdaZpXResult : Obligations.ExecLdaZpXResult := by
  rintro d8 v s rfl
  rw [exec_eq_perform, perform_ldaZpX, State.loadAccumulator_eq]
  rfl

/-! ## The whole step of each load (R66, R71 to R73) -/

section
variable {s : State}

/-- The load whose two bytes stand at `pc` (R71). -/
theorem State.nextInstr_of_ldaImm (h : s.mem.read s.pc = 0xA9#8) :
    s.nextInstr = .ldaImm (s.mem.read (s.pc + 1#16)) := by
  rw [State.nextInstr, fetchInstr_fst, Traced.start_st, h, opcodeOf_ldaImm]

/-- The same for a load from the zero page (R72). -/
theorem State.nextInstr_of_ldaZp (h : s.mem.read s.pc = 0xA5#8) :
    s.nextInstr = .ldaZp (s.mem.read (s.pc + 1#16)) := by
  rw [State.nextInstr, fetchInstr_fst, Traced.start_st, h, opcodeOf_ldaZp]

/-- The same for an indexed load (R73). -/
theorem State.nextInstr_of_ldaZpX (h : s.mem.read s.pc = 0xB5#8) :
    s.nextInstr = .ldaZpX (s.mem.read (s.pc + 1#16)) := by
  rw [State.nextInstr, fetchInstr_fst, Traced.start_st, h, opcodeOf_ldaZpX]

/-- The fetch of a two-byte instruction, the load's own debits and its end, as one change of the state before the
fetch. -/
theorem State.loadAccumulator_debit_fetched {k : Cycles} (hk : k.toNat + 2 < 2 ^ 32) (v : Byte) (s : State) :
    ((s.fetched 2).debit k).loadAccumulator v = { s with
      regs := { s.regs with a := v }
      p := { s.p with z := decide (v = 0#8), n := v.msb }
      pc := s.pc + 2#16
      cyc := debited (k + 2#32) s.cyc } := by
  rw [State.loadAccumulator_eq, ← debited_debited s.cyc hk]
  rfl

/-- The step and the pass of a two-byte instruction that debits `k` cycles after its fetch and then loads `v`: the next
state of both, and the accesses of the table of R66. -/
theorem step_and_bodyWith_of_load {i : Instr} {k : Cycles} {v : Byte} {accesses : List Access} (hcyc : s.cyc ≠ 0#32)
    (hnext : s.nextInstr = i) (hlength : i.length = 2) (hk : k.toNat + 2 < 2 ^ 32)
    (hload : ∀ c, (perform c i (.start (s.fetched 2))).st = ((s.fetched 2).debit k).loadAccumulator v)
    (haccesses : (costAndAccesses s).2 = accesses) (c : Config) :
    let t : State := { s with
      regs := { s.regs with a := v }
      p := { s.p with z := decide (v = 0#8), n := v.msb }
      pc := s.pc + 2#16
      cyc := debited (k + 2#32) s.cyc }
    step s = .next t ∧ bodyWith c (.start s) = ⟨t, accesses⟩ := by
  intro t
  have hst (c : Config) : (bodyWith c (.start s)).st = t := by
    rw [bodyWith_eq_perform, State.afterFetch, hnext, hlength, hload, State.loadAccumulator_debit_fetched hk]
  exact ⟨by rw [step_running hcyc, hst], Traced.ext (hst c) ((bodyWith_start_trace c s).trans haccesses)⟩

end

/-- Settles O25: the two fetches and a load of the operand. -/
theorem stepLdaImmediate : Obligations.StepLdaImmediate := by
  rintro c v s hcyc hop rfl
  exact step_and_bodyWith_of_load hcyc (State.nextInstr_of_ldaImm hop) rfl (by decide)
    (fun c => perform_ldaImm c _ (s.fetched 2)) (by simp [costAndAccesses, hop]) c

/-- Settles O26: the two fetches and a load of the datum, for one cycle more. -/
theorem stepLdaZeroPage : Obligations.StepLdaZeroPage := by
  rintro c d8 v s hcyc hop rfl rfl
  exact step_and_bodyWith_of_load hcyc (State.nextInstr_of_ldaZp hop) rfl (by decide)
    (fun c => perform_ldaZp c _ (s.fetched 2)) (by simp [costAndAccesses, hop]) c

/-- Settles O27: the two fetches and a load of the datum at the 8-bit sum, for two cycles more. -/
theorem stepLdaZeroPageX : Obligations.StepLdaZeroPageX := by
  rintro c d8 v s hcyc hop rfl rfl
  exact step_and_bodyWith_of_load hcyc (State.nextInstr_of_ldaZpX hop) rfl (by decide)
    (fun c => perform_ldaZpX c _ (s.fetched 2)) (by simp [costAndAccesses, hop]) c

end Sys2Proof.Machine
end

section
/-! PROOFS. The subroutine call: what JSR answers, its frame, its whole step, and that no other instruction stores, jumps
or looks at the stack pointer (spec file 42_subroutine.md). -/

namespace Sys2Proof.Machine

/-! ## What JSR answers (R80, R81) -/

theorem toWord_jsrSpAdvance (c : Config) : SpAdvance.toWord c.jsrSpAdvance = advanceOf c := by
  cases h : c.jsrSpAdvance <;> simp [advanceOf, SpAdvance.toWord, h]

/-- The memory after a call's store, in the spelling of the statements. -/
theorem State.read_afterPush_bytes (s : State) (ret a : Word) :
    (s.afterPush ret).read a =
      if a = s.sp then lowByte ret else if a = s.sp + 1#16 then highByte ret else s.mem.read a := by
  rw [State.read_afterPush, lowByte_eq_lo8, highByte_eq_hi8]

/-- The whole effect of a call after its fetch: the store and the bookkeeping debit a cycle each. -/
theorem perform_jsrAbs (c : Config) (target : Word) (s : State) :
    (perform c (.jsrAbs target) (.start s)).st = { s with
      pc := target
      sp := s.sp + advanceOf c
      cyc := debited 2#32 s.cyc
      mem := s.afterPush (s.pc - 1#16) } := by
  have hcyc : debited 1#32 (debited 1#32 s.cyc) = debited 2#32 s.cyc := debited_debited s.cyc (by decide)
  rw [← hcyc, ← toWord_jsrSpAdvance]
  rfl

/-- Settles O23: the call's effect with this machine's advance; the stored word is the one before `pc`. -/
theorem execJsrAbsResult : Obligations.ExecJsrAbsResult := by
  intro target s
  refine ⟨s.afterPush (s.pc - 1#16), ?_, s.read_afterPush_bytes _⟩
  rw [exec_eq_perform, perform_jsrAbs]
  rfl

/-- Settles O32: a call writes `sp`, `pc`, the counter and the two cells of its store. -/
theorem jsrKeepsRegistersFlagsAndOtherCells : Obligations.JsrKeepsRegistersFlagsAndOtherCells := by
  intro target s t h
  obtain rfl := exec_eq_next_iff.1 h
  exact ⟨rfl, rfl, rfl, fun _ => read_jsrAbs_of_ne machineConfig target (.start s)⟩

/-! ## The whole step of JSR (R66, R80, R81) -/

/-- The fetch of a call and its meaning, as one change of the state before the fetch: the stored word is the address of
the call's own last byte (R81). -/
theorem bodyWith_jsr_st (c : Config) {s : State} (h : s.mem.read s.pc = 0x20#8) :
    (bodyWith c (.start s)).st = { s with
      pc := s.mem.read (s.pc + 2#16) ++ s.mem.read (s.pc + 1#16)
      sp := s.sp + advanceOf c
      cyc := debited 5#32 s.cyc
      mem := s.afterPush (s.pc + 2#16) } := by
  have hcyc : debited 2#32 (debited 3#32 s.cyc) = debited 5#32 s.cyc := debited_debited s.cyc (by decide)
  rw [bodyWith_eq_perform, State.afterFetch, State.nextInstr_of_jsr h, perform_jsrAbs, join16_eq_append, ← hcyc,
    ← Word.add_three_sub_one]
  rfl

/-- Settles O28: the pass has this state and the accesses of the table of R66, and the step is the pass with an advance
of one. -/
theorem stepJsrAbsolute : Obligations.StepJsrAbsolute := by
  rintro c ll hh s hcyc hop rfl rfl
  refine ⟨s.afterPush (s.pc + 2#16), s.read_afterPush_bytes _, Traced.ext (bodyWith_jsr_st c hop) ?_, ?_⟩
  · rw [bodyWith_start_trace]
    simp [costAndAccesses, hop]
  · rw [step_running hcyc, bodyWith_jsr_st machineConfig hop]
    rfl

/-! ## JSR alone stores, jumps and looks at the stack pointer (R84) -/

/-- An instruction that is no call keeps memory and the stack pointer, and leaves `pc` where its fetch has put it. -/
theorem perform_keeps_mem_sp_pc {i : Instr} (h : i.opcode ≠ .jsrAbs) (c : Config) (s : State) :
    (perform c i (.start s)).st.mem = s.mem ∧ (perform c i (.start s)).st.sp = s.sp ∧
      (perform c i (.start s)).st.pc = s.pc := by
  cases i with
  | jsrAbs target => exact absurd rfl h
  | ldaZp d => exact ⟨rfl, rfl, rfl⟩
  | ldaImm d => exact ⟨rfl, rfl, rfl⟩
  | ldaZpX d => exact ⟨rfl, rfl, rfl⟩
  | unsupported b => exact ⟨rfl, rfl, rfl⟩

/-- Nor does it look at the stack pointer. -/
theorem perform_setSp {i : Instr} (h : i.opcode ≠ .jsrAbs) (c : Config) (v : Word) (s : State) :
    (perform c i (.start (s.setSp v))).st = (perform c i (.start s)).st.setSp v := by
  cases i with
  | jsrAbs target => exact absurd rfl h
  | ldaZp d => rfl
  | ldaImm d => rfl
  | ldaZpX d => rfl
  | unsupported b => rfl

theorem fetchBlind_setSp (v : Word) : FetchBlind (State.setSp v) where
  pc _ := rfl
  cyc _ := rfl
  mem _ := rfl
  fetched _ _ := rfl

/-- The fetch moves `pc` past the instruction whose opcode byte stands there (R54). -/
theorem State.afterFetch_pc (s : State) :
    s.afterFetch.pc = s.pc + BitVec.ofNat 16 (opcodeOf (s.mem.read s.pc)).length := by
  rw [State.afterFetch, State.fetched_pc, Instr.length, State.nextInstr_opcode]

/-- Settles O37: no meaning but the call's writes memory, `sp` or `pc` or looks at `sp`, and a fetch moves `pc` alone of
the three and does not look at `sp`. -/
theorem onlyJsrStoresJumpsAndUsesSp : Obligations.OnlyJsrStoresJumpsAndUsesSp := by
  intro s t hcyc hbyte hstep
  have hop : s.nextInstr.opcode ≠ .jsrAbs := by rwa [State.nextInstr_opcode, Ne, opcodeOf_eq_jsrAbs_iff]
  have hsp (v : Word) : step (s.setSp v) = .next (t.setSp v) :=
    (fetchBlind_setSp v).step hstep (fun _ => rfl) fun _ => perform_setSp hop machineConfig v
  obtain rfl := Host.Outcome.next.inj ((step_eq_perform hcyc).symm.trans hstep)
  obtain ⟨hmem, hsp', hpc⟩ := perform_keeps_mem_sp_pc hop machineConfig s.afterFetch
  exact ⟨hmem, hsp', hpc.trans s.afterFetch_pc, hsp⟩

end Sys2Proof.Machine
end

section
/-! PROOFS. The unsupported bytes: what one answers, its frame, and its whole step (spec file 43_unsupported.md). -/

namespace Sys2Proof.Machine

/-! ## What an unsupported byte answers (R90, R91) -/

/-- The meaning is the event alone, for either parameter. -/
theorem perform_unsupported (c : Config) (b : Byte) (s : State) :
    (perform c (.unsupported b) (.start s)).st = s.emitUnsupported b :=
  unsupported_st (.start s) b

/-- Settles O24: the event appends the byte to `diag`. -/
theorem execUnsupportedResult : Obligations.ExecUnsupportedResult := by
  intro b s
  rw [exec_eq_perform, perform_unsupported, State.emitUnsupported]

/-- Settles O33: the event writes `diag` alone. -/
theorem unsupportedKeepsAllButDiag : Obligations.UnsupportedKeepsAllButDiag := by
  intro b s t h
  obtain rfl := (perform_unsupported machineConfig b s).symm.trans (exec_eq_next_iff.1 h)
  exact ⟨s.emitUnsupported_regs b, s.emitUnsupported_pc b, s.emitUnsupported_sp b, s.emitUnsupported_p b,
    s.emitUnsupported_cyc b, fun a => by rw [State.emitUnsupported_mem]⟩

/-! ## The whole step of an unsupported byte (R66, R90) -/

section
variable {s : State}

/-- The instruction is the byte at `pc` itself (R53). -/
theorem State.nextInstr_of_unsupported (h : opcodeOf (s.mem.read s.pc) = .unsupported) :
    s.nextInstr = .unsupported (s.mem.read s.pc) := by
  rw [State.nextInstr, fetchInstr_fst, Traced.start_st, h]

/-- The fetch of the byte and its event, as one change of the state before the fetch. -/
theorem bodyWith_unsupported_st (c : Config) (h : opcodeOf (s.mem.read s.pc) = .unsupported) :
    (bodyWith c (.start s)).st = { s with
      pc := s.pc + 1#16
      cyc := debited 1#32 s.cyc
      diag := s.diag ++ [s.mem.read s.pc] } := by
  rw [bodyWith_eq_perform, State.afterFetch, State.nextInstr_of_unsupported h, perform_unsupported]
  rfl

end

/-- Settles O29: a byte other than the four supported ones is fetched alone and recorded; its one access is the fetch's,
by the table of R66. -/
theorem stepUnsupportedByte : Obligations.StepUnsupportedByte := by
  rintro c b s hcyc rfl hjsr hzp himm hzpx
  have hop := (opcodeOf_eq_unsupported_iff_ne (s.mem.read s.pc)).2 ⟨hjsr, hzp, himm, hzpx⟩
  refine ⟨?_, Traced.ext (bodyWith_unsupported_st c hop) ?_⟩
  · rw [step_running hcyc, bodyWith_unsupported_st machineConfig hop]
  · rw [bodyWith_start_trace]
    simp [costAndAccesses, hop]

end Sys2Proof.Machine
end

section
/-! PROOFS. No instruction and no state stops the machine (spec file 60_exceptions.md). -/

namespace Sys2Proof.Machine

/-- A step is total: it keeps a state with no cycle left and runs one pass of the loop on any other (R61, R100). -/
theorem exists_step_eq_next (s : State) : ∃ t, step s = .next t := by
  by_cases hcyc : s.cyc = 0#32
  · exact ⟨s, step_idle hcyc⟩
  · exact ⟨_, step_running hcyc⟩

/-- Settles O8: `exec` answers the state its operation leaves, a step is idle or one pass, and `Fault` has no
constructor. -/
theorem everyStepAnswersANextState : Obligations.EveryStepAnswersANextState :=
  ⟨fun i s => ⟨_, exec_eq_perform i s⟩, exists_step_eq_next, fun fault => nomatch fault⟩

end Sys2Proof.Machine
end

section
/-! PROOFS. Reset over any state (spec file 70_reset_and_hazards.md, section 1, R120). -/

namespace Sys2Proof.Machine

/-- With no flag set the raw view is 0. -/
theorem Status.raw_clear : Status.raw ⟨false, false, false, false, false, false⟩ = 0#8 := by decide

/-- After a `Reset` the raw view is 0, whatever the flags were. -/
@[simp] theorem hostReset_raw (s : State) : (hostReset s).p.raw = 0#8 := by
  rw [hostReset_p, Status.raw_clear]

/-- `Reset` is idempotent: what it writes does not depend on the state, and what it keeps it keeps twice. -/
@[simp] theorem hostReset_hostReset (s : State) : hostReset (hostReset s) = hostReset s := rfl

/-- Settles O42: the state is read off the definition, and the other two clauses are the lemmas above. -/
theorem resetRestoresPowerOnValues : Obligations.ResetRestoresPowerOnValues :=
  fun s => ⟨rfl, hostReset_raw s, hostReset_hostReset s⟩

end Sys2Proof.Machine
end

section
/-! PROOFS. The canonical form of memory: every step and every host operation keeps it, and in it memories that read the
same are equal data (spec file 20_memory.md, log entry 7). -/

namespace Sys2Proof.Machine

/-! ## What keeps the canonical form -/

/-- The two byte writes of a call keep the canonical form (R33, R80). -/
theorem State.wf_afterPush {s : State} (h : s.Inv) (ret : Word) : (s.afterPush ret).wf = true :=
  Memory.wf_write (s.sp + 1#16) (hi8 ret) (Memory.wf_write s.sp (lo8 ret) h)

theorem perform_inv (c : Config) (i : Instr) {s : State} (h : s.Inv) : (perform c i (.start s)).st.Inv := by
  obtain hkept | ⟨target, rfl⟩ := perform_mem c i s
  · rwa [State.Inv, hkept]
  · exact State.wf_afterPush h _

/-- A fetch keeps memory, so a whole pass keeps the canonical form as its meaning does. -/
theorem bodyWith_inv (c : Config) (s : State) (h : s.Inv) : (bodyWith c (.start s)).st.Inv := by
  rw [bodyWith_eq_perform]
  exact perform_inv c _ h

theorem hostOp_inv (op : HostOp) {s : State} (h : s.Inv) : (op.effect s).Inv := by
  cases op with
  | construct => exact Memory.wf_nil
  | write a v => exact Memory.wf_write a v h
  | reset => exact h
  | read a => exact h
  | observe => exact h
  | execute budget => exact h

/-- Settles O48: a call alone writes memory, by two byte writes that each keep the canonical form. -/
theorem stepKeepsMemoryCanonical : Obligations.StepKeepsMemoryCanonical :=
  fun _ _ hs hstep => step_keeps (bodyWith_inv machineConfig) hs hstep

/-- Settles O49: `Construct` makes the empty memory, `HostWrite` writes one cell, and the others keep memory. -/
theorem hostKeepsMemoryCanonical : Obligations.HostKeepsMemoryCanonical := by
  intro op s t hs happly
  obtain ⟨-, rfl⟩ := (hostApply_eq_some_iff s).1 happly
  exact hostOp_inv op hs

/-! ## Memories are determined by their cells -/

theorem Memory.read_cons (cell : Host.Cell) (m : Memory) (a : Word) :
    Memory.read (cell :: m) a = if cell.1 = a.toNat then cell.2 else m.read a := rfl

/-- Below the bound of its canonical form a memory lists nothing. -/
theorem Memory.read_of_wfFrom_of_lt {lo : Nat} {m : Memory} {a : Word} (h : Memory.wfFrom lo m = true)
    (ha : a.toNat < lo) : m.read a = unlistedByte := by
  induction m generalizing lo with
  | nil => rfl
  | cons cell m ih =>
    obtain ⟨hlo, -, -, hm⟩ := (Memory.wfFrom_cons lo cell m).1 h
    rw [Memory.read_cons, if_neg (by omega), ih hm (by omega)]

/-- A canonical memory lists its first cell at an address of the machine, where it reads as that cell. -/
theorem Memory.read_head {lo : Nat} {cell : Host.Cell} {m : Memory} (h : Memory.wfFrom lo (cell :: m) = true) :
    (BitVec.ofNat 16 cell.1).toNat = cell.1 ∧ Memory.read (cell :: m) (BitVec.ofNat 16 cell.1) = cell.2 := by
  obtain ⟨-, hbound, -, -⟩ := (Memory.wfFrom_cons lo cell m).1 h
  have haddr : (BitVec.ofNat 16 cell.1).toNat = cell.1 := by rw [BitVec.toNat_ofNat, Nat.mod_eq_of_lt hbound]
  exact ⟨haddr, by rw [Memory.read_cons, if_pos haddr.symm]⟩

/-- The first address is itself a lower bound. -/
theorem Memory.wfFrom_head {lo : Nat} {cell : Host.Cell} {m : Memory} (h : Memory.wfFrom lo (cell :: m) = true) :
    Memory.wfFrom cell.1 (cell :: m) = true :=
  (Memory.wfFrom_cons _ _ _).2 ⟨le_rfl, ((Memory.wfFrom_cons _ _ _).1 h).2⟩

/-- The first listed cell shows: a memory that lists only higher addresses reads otherwise there. -/
theorem Memory.not_read_eq_of_lt {lo lo' : Nat} {cell : Host.Cell} {m m' : Memory}
    (h : Memory.wfFrom lo (cell :: m) = true) (h' : Memory.wfFrom lo' m' = true) (hlt : cell.1 < lo') :
    ¬ ∀ a, Memory.read (cell :: m) a = m'.read a := by
  obtain ⟨-, -, hlisted, -⟩ := (Memory.wfFrom_cons lo cell m).1 h
  obtain ⟨haddr, hbyte⟩ := Memory.read_head h
  intro hread
  apply hlisted
  rw [← hbyte, hread, Memory.read_of_wfFrom_of_lt h' (haddr.trans_lt hlt)]

/-- Canonical memories that read the same list the same first cell. -/
theorem Memory.head_eq_of_read_eq {lo lo' : Nat} {cell cell' : Host.Cell} {m m' : Memory}
    (h : Memory.wfFrom lo (cell :: m) = true) (h' : Memory.wfFrom lo' (cell' :: m') = true)
    (hread : ∀ a, Memory.read (cell :: m) a = Memory.read (cell' :: m') a) : cell = cell' := by
  have hle : cell.1 ≤ cell'.1 := Nat.le_of_not_lt fun hlt =>
    Memory.not_read_eq_of_lt h' (Memory.wfFrom_head h) hlt fun a => (hread a).symm
  have hge : cell'.1 ≤ cell.1 := Nat.le_of_not_lt fun hlt =>
    Memory.not_read_eq_of_lt h (Memory.wfFrom_head h') hlt hread
  have haddr : cell.1 = cell'.1 := Nat.le_antisymm hle hge
  have hbyte : cell.2 = cell'.2 := by
    rw [← (Memory.read_head h).2, hread, haddr, (Memory.read_head h').2]
  exact Prod.ext haddr hbyte

/-- Without its first cell, a canonical memory reads as before but at that cell's address, where it lists nothing. -/
theorem Memory.read_tail {lo : Nat} {cell : Host.Cell} {m : Memory} (h : Memory.wfFrom lo (cell :: m) = true)
    (a : Word) : m.read a = if cell.1 = a.toNat then unlistedByte else Memory.read (cell :: m) a := by
  obtain ⟨-, -, -, hm⟩ := (Memory.wfFrom_cons lo cell m).1 h
  by_cases ha : cell.1 = a.toNat
  · rw [if_pos ha, Memory.read_of_wfFrom_of_lt hm (by omega)]
  · rw [if_neg ha, Memory.read_cons, if_neg ha]

/-- Canonical memories that read the same are equal: their first cells are, and their tails read the same again. -/
theorem Memory.eq_of_read_eq {lo lo' : Nat} {m m' : Memory} (h : Memory.wfFrom lo m = true)
    (h' : Memory.wfFrom lo' m' = true) (hread : ∀ a, m.read a = m'.read a) : m = m' := by
  induction m generalizing lo lo' m' with
  | nil =>
    cases m' with
    | nil => rfl
    | cons cell' m' => exact absurd (fun a => (hread a).symm) (Memory.not_read_eq_of_lt h' rfl (Nat.lt_succ_self _))
  | cons cell m ih =>
    cases m' with
    | nil => exact absurd hread (Memory.not_read_eq_of_lt h rfl (Nat.lt_succ_self _))
    | cons cell' m' =>
      obtain rfl := Memory.head_eq_of_read_eq h h' hread
      obtain ⟨-, -, -, hm⟩ := (Memory.wfFrom_cons lo cell m).1 h
      obtain ⟨-, -, -, hm'⟩ := (Memory.wfFrom_cons lo' cell m').1 h'
      have htail (a : Word) : Memory.read m a = Memory.read m' a := by
        rw [Memory.read_tail h, Memory.read_tail h', hread]
      rw [ih hm hm' htail]

/-- Settles O50: extensionality of the canonical form, from the bound 0. -/
theorem equalReadsGiveEqualMemories : Obligations.EqualReadsGiveEqualMemories :=
  fun _ _ h h' hread => Memory.eq_of_read_eq h h' hread

end Sys2Proof.Machine
end
